-- ==== Sys2Proof/Word.lean ====
section
/-! DEFINITION. The plain value types of the CHIP-8 core: bytes, 16-bit words, the operand fields of an
instruction and the register and key numbers (00_scope.md R8 to R10, R17; 30_encoding.md R122). -/

namespace Sys2Proof

/-- One byte: a memory cell (R49), a general register (R31), a timer (R44, R45). -/
abbrev Byte := BitVec 8

/-- 16 bits: the program counter, the address register, a stack slot, an instruction word. -/
abbrev Word := BitVec 16

/-- A 4-bit field of an instruction word. -/
abbrev Nibble := BitVec 4

/-- The 12-bit field `nnn` of an instruction word. -/
abbrev Addr := BitVec 12

/-- The number of a general register, V0 to VF (R31). -/
abbrev Reg := Fin 16

/-- The number of a key, 0 to 15 (R17). -/
abbrev Key := Fin 16

/-- The key states of one step (R441, R445 `key_held[15:0]`). DESIGN CHOICE, log entry 15: bit k is key k. -/
abbrev KeySnapshot := BitVec 16

/-- VF, register 15, the flag register (R32). -/
abbrev Reg.VF : Reg := 15

end Sys2Proof
end

