-- ==== Sys2Proof/Machine/Flags.lean ====
section
/-! DEFINITION. The flag computations (10_state.md R34, 43_alu.md). A flag is a whole byte, 0 or 1, written to VF;
carry and no-borrow are taken from the untruncated operands (R282). -/

namespace Sys2Proof.Machine

/-- A truth value as the byte written to VF. -/
def flagByte (b : Bool) : Byte := if b then 1 else 0

/-- The carry of 8xy4: the 9-bit sum exceeds 255 (R276). -/
def carryFlag (a b : Byte) : Byte := flagByte (decide (a.toNat + b.toNat > 255))

/-- The no-borrow flag of `a - b`: the minuend is at least the subtrahend (R277, R279). -/
def noBorrowFlag (a b : Byte) : Byte := flagByte (decide (b.toNat ≤ a.toNat))

/-- The bit a right shift moves out, `a & 1` (R278). -/
def lowBitOut (a : Byte) : Byte := a &&& 1

/-- The bit a left shift moves out, `(a & 0x80) != 0` (R280). -/
def highBitOut (a : Byte) : Byte := flagByte (decide (a &&& 0x80 ≠ 0))

end Sys2Proof.Machine
end

