-- ==== Sys2Proof/Config.lean ====
section
/-! DEFINITION. The implementation parameters of 00_scope.md section 4, and the free values: the answers of the
environment's two oracles (R20) past the ones the state holds. -/

namespace Sys2Proof

/-- `MEM_SIZE`, the number of bytes of memory (R12). DESIGN CHOICE of the spec (D1), log entry 2. -/
abbrev Config.memSize : Nat := 4096

/-- `PROGRAM_LOAD_OFFSET`, where a program is loaded and starts (R13). -/
abbrev Config.loadOffset : Nat := 0x200

/-- `FONT_BASE`, the address of the font table (R16). -/
abbrev Config.fontBase : Nat := 0

/-- `GLYPH_SIZE`, the number of bytes of one glyph (R16). -/
abbrev Config.glyphSize : Nat := 5

/-- `DISP_W`, the number of columns of the display (R15). Log entry 4. -/
abbrev Config.dispW : Nat := 64

/-- `DISP_H`, the number of rows of the display (R15). Log entry 4. -/
abbrev Config.dispH : Nat := 32

/-- `STACK_DEPTH`, the number of return-address slots (R11). -/
abbrev Config.stackDepth : Nat := 16

/-- `TIMER_HZ`, timer ticks per second (R18). -/
abbrev Config.timerHz : Nat := 60

/-- How much of the Timer Clock's remainder makes one tick: 1000 units of 1/60000 s (R53, R421). -/
abbrev Config.tickUnits : Nat := 1000

/-- The parameter the source names without a value (R14, D2, 93_implementation_defined.md U9). It is plain data
of the state, so that a claim about every state is a claim about every value. Log entry 1. -/
structure Params where
  /-- `STACK_REGION_OFFSET`, the boundary the program counter must stay below. -/
  stackRegionOffset : Nat
  deriving DecidableEq, Repr

/-- FREE VALUE. The key snapshot of the n-th step, where the state holds no answer for it (R441, U6): nothing
constrains it. Log entry 5. -/
opaque Config.freeKeys : Nat → KeySnapshot

/-- FREE VALUE. The n-th byte drawn, where the state holds no answer for it (R442, U5): nothing constrains it.
Log entry 6. -/
opaque Config.freeRandom : Nat → Byte

end Sys2Proof
end

