-- ==== Sys2Proof/Syntax.lean ====
section
/-! DEFINITION. The instructions: one constructor per row of spec/opcode_table.json, in the table's order, and the
record the decoder cuts from a word (30_encoding.md R122, R123). -/

namespace Sys2Proof

/-- The fields of an instruction word, all views of the same 16 bits (R122). -/
structure Fields where
  /-- `w[15:12]` -/
  group : Nibble
  /-- `w[11:8]` -/
  x : Nibble
  /-- `w[7:4]` -/
  y : Nibble
  /-- `w[3:0]` -/
  n : Nibble
  /-- `w[7:0]` -/
  kk : Byte
  /-- `w[11:0]` -/
  nnn : Addr
  deriving DecidableEq, Repr

/-- The 34 instructions of the opcode map (R125). A field the instruction does not read (`n` of SE_REG and
SNE_REG, `y` of SHR and SHL) is kept: it is part of the word. -/
inductive Instr where
  /-- `00E0` CLS (R200) -/
  | cls
  /-- `00EE` RET (R230) -/
  | ret
  /-- `1nnn` JP addr (R231) -/
  | jp (nnn : Addr)
  /-- `2nnn` CALL addr (R232) -/
  | call (nnn : Addr)
  /-- `3xkk` SE Vx, byte (R233) -/
  | seImm (x : Reg) (kk : Byte)
  /-- `4xkk` SNE Vx, byte (R234) -/
  | sneImm (x : Reg) (kk : Byte)
  /-- `5xyn` SE Vx, Vy, any n (R235) -/
  | seReg (x y : Reg) (n : Nibble)
  /-- `6xkk` LD Vx, byte (R270) -/
  | ldImm (x : Reg) (kk : Byte)
  /-- `7xkk` ADD Vx, byte (R271) -/
  | addImm (x : Reg) (kk : Byte)
  /-- `8xy0` LD Vx, Vy (R272) -/
  | ldReg (x y : Reg)
  /-- `8xy1` OR Vx, Vy (R273) -/
  | orReg (x y : Reg)
  /-- `8xy2` AND Vx, Vy (R274) -/
  | andReg (x y : Reg)
  /-- `8xy3` XOR Vx, Vy (R275) -/
  | xorReg (x y : Reg)
  /-- `8xy4` ADD Vx, Vy (R276) -/
  | addReg (x y : Reg)
  /-- `8xy5` SUB Vx, Vy (R277) -/
  | sub (x y : Reg)
  /-- `8xy6` SHR Vx (R278) -/
  | shr (x y : Reg)
  /-- `8xy7` SUBN Vx, Vy (R279) -/
  | subn (x y : Reg)
  /-- `8xyE` SHL Vx (R280) -/
  | shl (x y : Reg)
  /-- `9xyn` SNE Vx, Vy, any n (R236) -/
  | sneReg (x y : Reg) (n : Nibble)
  /-- `Annn` LD I, addr (R330) -/
  | ldI (nnn : Addr)
  /-- `Bnnn` JP V0, addr (R237) -/
  | jpV0 (nnn : Addr)
  /-- `Cxkk` RND Vx, byte (R281) -/
  | rnd (x : Reg) (kk : Byte)
  /-- `Dxyn` DRW Vx, Vy, n (R201) -/
  | drw (x y : Reg) (n : Nibble)
  /-- `Ex9E` SKP Vx (R370) -/
  | skp (x : Reg)
  /-- `ExA1` SKNP Vx (R371) -/
  | sknp (x : Reg)
  /-- `Fx07` LD Vx, DT (R372) -/
  | ldVxDt (x : Reg)
  /-- `Fx0A` LD Vx, K (R373) -/
  | ldVxK (x : Reg)
  /-- `Fx15` LD DT, Vx (R374) -/
  | ldDtVx (x : Reg)
  /-- `Fx18` LD ST, Vx (R375) -/
  | ldStVx (x : Reg)
  /-- `Fx1E` ADD I, Vx (R331) -/
  | addI (x : Reg)
  /-- `Fx29` LD F, Vx (R332) -/
  | ldF (x : Reg)
  /-- `Fx33` LD B, Vx (R333) -/
  | ldB (x : Reg)
  /-- `Fx55` LD [I], Vx (R334) -/
  | ldMemVx (x : Reg)
  /-- `Fx65` LD Vx, [I] (R335) -/
  | ldVxMem (x : Reg)
  deriving DecidableEq, Repr

end Sys2Proof
end

