-- ==== Sys2Proof/WellFormed.lean ====
section
/-! DEFINITION. The checks. Every operand of `Instr` has exactly the type of its field of the word (a register is
one of 16, `kk` has 8 bits, `nnn` 12, `n` 4), so every term of `Instr` is well formed by its type and no check on it
is needed. What can be ill formed is raw: a record of fields whose views disagree (R122), a record that no row of
the opcode map selects (R126 to R130), and a value of the open parameter outside the range R14 requires. -/

namespace Sys2Proof

/-- `kk` is `y ‖ n` (R122). -/
def Fields.kkAgrees (f : Fields) : Bool := f.kk == f.y ++ f.n

/-- `nnn` is `x ‖ kk` (R122). -/
def Fields.nnnAgrees (f : Fields) : Bool := f.nnn == f.x ++ f.kk

/-- The views agree: they are cut from one word (R122). -/
def Fields.wellFormed (f : Fields) : Bool := f.kkAgrees && f.nnnAgrees

/-- Group 0 holds exactly 00E0 and 00EE, selected by the whole of `nnn` (R126). -/
def Fields.group0Legal (f : Fields) : Bool := f.nnn == 0x0E0 || f.nnn == 0x0EE

/-- Group 8 is selected by `n`: 0 to 7 and 0xE (R128). -/
def Fields.group8Legal (f : Fields) : Bool := f.n.toNat ≤ 7 || f.n == 0xE

/-- Group E is selected by `kk`: 0x9E and 0xA1 (R129). -/
def Fields.groupELegal (f : Fields) : Bool := f.kk == 0x9E || f.kk == 0xA1

/-- Group F is selected by `kk`: nine values (R130). -/
def Fields.groupFLegal (f : Fields) : Bool :=
  [0x07, 0x0A, 0x15, 0x18, 0x1E, 0x29, 0x33, 0x55, 0x65].contains f.kk

/-- Some row of the opcode map selects the record: groups 0, 8, E and F by their second field (R126, R128 to
R130), every record of any other group (R127, R131). -/
def Fields.legal (f : Fields) : Bool :=
  if f.group = 0x0 then f.group0Legal
  else if f.group = 0x8 then f.group8Legal
  else if f.group = 0xE then f.groupELegal
  else if f.group = 0xF then f.groupFLegal
  else true

/-- What R14 requires of STACK_REGION_OFFSET: even, and between PROGRAM_LOAD_OFFSET + 2 and MEM_SIZE. -/
def Params.legal (p : Params) : Bool :=
  p.stackRegionOffset % 2 == 0 && Config.loadOffset + 2 ≤ p.stackRegionOffset
    && p.stackRegionOffset ≤ Config.memSize

end Sys2Proof
end

