-- ==== Sys2Proof/Decode.lean ====
section
/-! DEFINITION. The decoder and the encoder (30_encoding.md). The decoder has the spec's two layers: cutting the
fields from a word, which cannot fail (R122, R123), and selecting the row of the opcode map, which rejects by name
(R125 to R130). -/

namespace Sys2Proof

/-- Why a byte string or a word is no instruction. -/
inductive Illegal where
  /-- fewer than two bytes (R120) -/
  | truncated
  /-- a group-0 word that is not 00E0 or 00EE (R126) -/
  | group0
  /-- a group-8 word with n = 8 to 0xD or 0xF (R128) -/
  | group8
  /-- a group-E word with kk not 0x9E or 0xA1 (R129) -/
  | groupE
  /-- a group-F word with kk outside R130's list -/
  | groupF
  deriving DecidableEq, Repr

/-- A 4-bit field read as a register number (R124). -/
def regOf (b : Nibble) : Reg := b.toFin

/-- A register number as a 4-bit field. -/
def nibbleOf (r : Reg) : Nibble := BitVec.ofFin r

/-- The instruction word of two bytes, byte 0 high (R84, R121). -/
def wordOf (b0 b1 : Byte) : Word := b0 ++ b1

/-- The byte of a word stored at the lower address (R121). -/
def hiByte (w : Word) : Byte := w.extractLsb' 8 8

/-- The byte of a word stored at the higher address (R121). -/
def loByte (w : Word) : Byte := w.extractLsb' 0 8

/-- The decoder: cut the fields from a word (R122). -/
def fieldsOf (w : Word) : Fields where
  group := w.extractLsb' 12 4
  x := w.extractLsb' 8 4
  y := w.extractLsb' 4 4
  n := w.extractLsb' 0 4
  kk := w.extractLsb' 0 8
  nnn := w.extractLsb' 0 12

/-- Group 0, selected by `nnn` (R126). -/
def selectGroup0 (f : Fields) : Except Illegal Instr :=
  if f.nnn = 0x0E0 then .ok .cls
  else if f.nnn = 0x0EE then .ok .ret
  else .error .group0

/-- Group 8, selected by `n` (R128). -/
def selectGroup8 (f : Fields) : Except Illegal Instr :=
  let x := regOf f.x
  let y := regOf f.y
  if f.n = 0x0 then .ok (.ldReg x y)
  else if f.n = 0x1 then .ok (.orReg x y)
  else if f.n = 0x2 then .ok (.andReg x y)
  else if f.n = 0x3 then .ok (.xorReg x y)
  else if f.n = 0x4 then .ok (.addReg x y)
  else if f.n = 0x5 then .ok (.sub x y)
  else if f.n = 0x6 then .ok (.shr x y)
  else if f.n = 0x7 then .ok (.subn x y)
  else if f.n = 0xE then .ok (.shl x y)
  else .error .group8

/-- Group E, selected by `kk` (R129). -/
def selectGroupE (f : Fields) : Except Illegal Instr :=
  if f.kk = 0x9E then .ok (.skp (regOf f.x))
  else if f.kk = 0xA1 then .ok (.sknp (regOf f.x))
  else .error .groupE

/-- Group F, selected by `kk` (R130). -/
def selectGroupF (f : Fields) : Except Illegal Instr :=
  let x := regOf f.x
  if f.kk = 0x07 then .ok (.ldVxDt x)
  else if f.kk = 0x0A then .ok (.ldVxK x)
  else if f.kk = 0x15 then .ok (.ldDtVx x)
  else if f.kk = 0x18 then .ok (.ldStVx x)
  else if f.kk = 0x1E then .ok (.addI x)
  else if f.kk = 0x29 then .ok (.ldF x)
  else if f.kk = 0x33 then .ok (.ldB x)
  else if f.kk = 0x55 then .ok (.ldMemVx x)
  else if f.kk = 0x65 then .ok (.ldVxMem x)
  else .error .groupF

/-- The Dispatcher's selection of a row of the opcode map (R125): by `group`, and for groups 0, 8, E and F by a
second field. Groups 5 and 9 are selected by `group` alone (R127), as are the groups of R131. -/
def select (f : Fields) : Except Illegal Instr :=
  let x := regOf f.x
  let y := regOf f.y
  match f.group.toNat with
  | 0x0 => selectGroup0 f
  | 0x1 => .ok (.jp f.nnn)
  | 0x2 => .ok (.call f.nnn)
  | 0x3 => .ok (.seImm x f.kk)
  | 0x4 => .ok (.sneImm x f.kk)
  | 0x5 => .ok (.seReg x y f.n)
  | 0x6 => .ok (.ldImm x f.kk)
  | 0x7 => .ok (.addImm x f.kk)
  | 0x8 => selectGroup8 f
  | 0x9 => .ok (.sneReg x y f.n)
  | 0xA => .ok (.ldI f.nnn)
  | 0xB => .ok (.jpV0 f.nnn)
  | 0xC => .ok (.rnd x f.kk)
  | 0xD => .ok (.drw x y f.n)
  | 0xE => selectGroupE f
  | _ => selectGroupF f

/-- The instruction of a word, or the name of the rule that rejects it. -/
def decode (w : Word) : Except Illegal Instr := select (fieldsOf w)

/-- The instruction at the head of a byte string, with the rest of the string; every instruction has exactly two
bytes (R120, R134). -/
def decodeBytes : List Byte → Except Illegal (Instr × List Byte)
  | b0 :: b1 :: rest =>
    match decode (wordOf b0 b1) with
    | .ok i => .ok (i, rest)
    | .error e => .error e
  | _ => .error .truncated

/-- A word of the form `g ‖ nnn`. -/
def wordNNN (g : Nibble) (nnn : Addr) : Word := g ++ nnn

/-- A word of the form `g ‖ x ‖ kk`. -/
def wordXKK (g : Nibble) (x : Reg) (kk : Byte) : Word := g ++ nibbleOf x ++ kk

/-- A word of the form `g ‖ x ‖ y ‖ n`. -/
def wordXYN (g : Nibble) (x y : Reg) (n : Nibble) : Word := g ++ nibbleOf x ++ nibbleOf y ++ n

/-- The word of an instruction, from the patterns of R125. -/
def encode : Instr → Word
  | .cls => wordNNN 0x0 0x0E0
  | .ret => wordNNN 0x0 0x0EE
  | .jp nnn => wordNNN 0x1 nnn
  | .call nnn => wordNNN 0x2 nnn
  | .seImm x kk => wordXKK 0x3 x kk
  | .sneImm x kk => wordXKK 0x4 x kk
  | .seReg x y n => wordXYN 0x5 x y n
  | .ldImm x kk => wordXKK 0x6 x kk
  | .addImm x kk => wordXKK 0x7 x kk
  | .ldReg x y => wordXYN 0x8 x y 0x0
  | .orReg x y => wordXYN 0x8 x y 0x1
  | .andReg x y => wordXYN 0x8 x y 0x2
  | .xorReg x y => wordXYN 0x8 x y 0x3
  | .addReg x y => wordXYN 0x8 x y 0x4
  | .sub x y => wordXYN 0x8 x y 0x5
  | .shr x y => wordXYN 0x8 x y 0x6
  | .subn x y => wordXYN 0x8 x y 0x7
  | .shl x y => wordXYN 0x8 x y 0xE
  | .sneReg x y n => wordXYN 0x9 x y n
  | .ldI nnn => wordNNN 0xA nnn
  | .jpV0 nnn => wordNNN 0xB nnn
  | .rnd x kk => wordXKK 0xC x kk
  | .drw x y n => wordXYN 0xD x y n
  | .skp x => wordXKK 0xE x 0x9E
  | .sknp x => wordXKK 0xE x 0xA1
  | .ldVxDt x => wordXKK 0xF x 0x07
  | .ldVxK x => wordXKK 0xF x 0x0A
  | .ldDtVx x => wordXKK 0xF x 0x15
  | .ldStVx x => wordXKK 0xF x 0x18
  | .addI x => wordXKK 0xF x 0x1E
  | .ldF x => wordXKK 0xF x 0x29
  | .ldB x => wordXKK 0xF x 0x33
  | .ldMemVx x => wordXKK 0xF x 0x55
  | .ldVxMem x => wordXKK 0xF x 0x65

/-- The two raw bytes of an instruction, as a fault record holds them (R405). -/
def instrBytes (i : Instr) : Byte × Byte := (hiByte (encode i), loByte (encode i))

/-- The match and mask of an instruction's row in spec/opcode_table.json, written from the table and not from the
encoder: the two descriptions are compared in Laws/PerInstr.lean. -/
def opcodeRow : Instr → Word × Word
  | .cls => (0x00E0, 0xFFFF)
  | .ret => (0x00EE, 0xFFFF)
  | .jp _ => (0x1000, 0xF000)
  | .call _ => (0x2000, 0xF000)
  | .seImm _ _ => (0x3000, 0xF000)
  | .sneImm _ _ => (0x4000, 0xF000)
  | .seReg _ _ _ => (0x5000, 0xF000)
  | .ldImm _ _ => (0x6000, 0xF000)
  | .addImm _ _ => (0x7000, 0xF000)
  | .ldReg _ _ => (0x8000, 0xF00F)
  | .orReg _ _ => (0x8001, 0xF00F)
  | .andReg _ _ => (0x8002, 0xF00F)
  | .xorReg _ _ => (0x8003, 0xF00F)
  | .addReg _ _ => (0x8004, 0xF00F)
  | .sub _ _ => (0x8005, 0xF00F)
  | .shr _ _ => (0x8006, 0xF00F)
  | .subn _ _ => (0x8007, 0xF00F)
  | .shl _ _ => (0x800E, 0xF00F)
  | .sneReg _ _ _ => (0x9000, 0xF000)
  | .ldI _ => (0xA000, 0xF000)
  | .jpV0 _ => (0xB000, 0xF000)
  | .rnd _ _ => (0xC000, 0xF000)
  | .drw _ _ _ => (0xD000, 0xF000)
  | .skp _ => (0xE09E, 0xF0FF)
  | .sknp _ => (0xE0A1, 0xF0FF)
  | .ldVxDt _ => (0xF007, 0xF0FF)
  | .ldVxK _ => (0xF00A, 0xF0FF)
  | .ldDtVx _ => (0xF015, 0xF0FF)
  | .ldStVx _ => (0xF018, 0xF0FF)
  | .addI _ => (0xF01E, 0xF0FF)
  | .ldF _ => (0xF029, 0xF0FF)
  | .ldB _ => (0xF033, 0xF0FF)
  | .ldMemVx _ => (0xF055, 0xF0FF)
  | .ldVxMem _ => (0xF065, 0xF0FF)

/-- The instruction read from bits numbered as spec/opcode_table.json numbers them: the table's row is one 16-bit
word with bit 0 its least significant bit, stored high byte first (R84). A row longer than 16 bits does not exist. -/
def decodeTableWord (nbits w : Nat) : Option Instr :=
  if nbits ≤ 16 then
    let word := BitVec.ofNat 16 (w % 2 ^ nbits)
    match decodeBytes [hiByte word, loByte word] with
    | .ok (i, _) => some i
    | .error _ => none
  else none

end Sys2Proof
end

