-- ==== Sys2Proof/Machine/Defaults.lean ====
section
/-! DEFINITION. The values of the parameters the source leaves without one: the default stack-region boundary and
the font bytes, both the spec's own from general knowledge (10_state.md R49, 00_scope.md R14). They stand here, and
not in Config.lean, so that a test that shows another value can be answered by another body. -/

namespace Sys2Proof.Machine

/-- The default of STACK_REGION_OFFSET, 0xEA0 (R14, D2, GK3). DESIGN CHOICE of the spec, log entry 1. -/
def defaultParams : Params := { stackRegionOffset := 0xEA0 }

/-- The sixteen glyphs 0 to F, five bytes each (R49's table; D3, GK1). DESIGN CHOICE of the spec, log entry 3. -/
def fontGlyphs : List (List Byte) :=
  [[0xF0, 0x90, 0x90, 0x90, 0xF0], [0x20, 0x60, 0x20, 0x20, 0x70],
   [0xF0, 0x10, 0xF0, 0x80, 0xF0], [0xF0, 0x10, 0xF0, 0x10, 0xF0],
   [0x90, 0x90, 0xF0, 0x10, 0x10], [0xF0, 0x80, 0xF0, 0x10, 0xF0],
   [0xF0, 0x80, 0xF0, 0x90, 0xF0], [0xF0, 0x10, 0x20, 0x40, 0x40]]
  ++
  [[0xF0, 0x90, 0xF0, 0x90, 0xF0], [0xF0, 0x90, 0xF0, 0x10, 0xF0],
   [0xF0, 0x90, 0xF0, 0x90, 0x90], [0xE0, 0x90, 0xE0, 0x90, 0xE0],
   [0xF0, 0x80, 0x80, 0x80, 0xF0], [0xE0, 0x90, 0x90, 0x90, 0xE0],
   [0xF0, 0x80, 0xF0, 0x80, 0xF0], [0xF0, 0x80, 0xF0, 0x80, 0x80]]

/-- What every address holds after reset (R49, R55): byte `a - FONT_BASE` of the font table, where glyph g stands
at FONT_BASE + 5g to FONT_BASE + 5g + 4, and 0 at every other address. -/
def resetByte (a : Nat) : Byte :=
  if a < Config.fontBase then 0
  else
    (fontGlyphs.getD ((a - Config.fontBase) / Config.glyphSize) []).getD
      ((a - Config.fontBase) % Config.glyphSize) 0

end Sys2Proof.Machine
end

