-- ==== Sys2Proof/Machine/State.lean ====
section
/-! DEFINITION. The state of the core (10_state.md R30) as plain data, with the fields of the model's own that hold
its parameter, the environment's answers, the driver's schedule and the outputs; the reasons a step can stop; and
the state after reset (10_state.md R55, 70_reset_and_hazards.md R470). -/

namespace Sys2Proof.Machine

/-- Memory, the addresses whose byte differs from its reset byte, rising (log entry 12). An unlisted address holds
`resetByte`. -/
abbrev Memory := List Host.Cell

/-- The display: 32 rows of 64 one-bit cells (R51). -/
abbrev Display := Vector (Vector Bool 64) 32

/-- The fault codes (R401). -/
inductive FaultCode where
  /-- the fetched word matches no row of the opcode map (R168) -/
  | unimplemented
  /-- a fetch or data access at or above MEM_SIZE (R86) -/
  | memBounds
  /-- a fetch below PROGRAM_LOAD_OFFSET (R165) -/
  | reservedFetch
  /-- a key number above 15 in SKP or SKNP (R370, R371) -/
  | keyRange
  deriving DecidableEq, Repr

/-- The fault record `{code, pc, bytes, addr}` (R405). -/
structure FaultRecord where
  /-- what happened -/
  code : FaultCode
  /-- the address of the faulting instruction -/
  pc : Word
  /-- the two raw bytes, none when the fetch itself failed -/
  bytes : Option (Byte × Byte)
  /-- the first out-of-range address for MEM_BOUNDS, the key for KEY_RANGE, none otherwise -/
  addr : Option Nat
  deriving DecidableEq, Repr

/-- The warning codes (R402). -/
inductive WarnCode where
  /-- CALL with all 16 slots in use (R232) -/
  | stackOverflow
  /-- RET with no slot in use (R230) -/
  | stackUnderflow
  /-- the program counter at or past STACK_REGION_OFFSET after an instruction (R171) -/
  | pcBoundary
  /-- a program longer than the program region (R476) -/
  | loadTooLarge
  deriving DecidableEq, Repr

/-- One entry of the warning log, `{code, pc}` (R410). -/
structure WarnEntry where
  /-- what happened -/
  code : WarnCode
  /-- the address of the instruction that raised it -/
  pc : Word
  deriving DecidableEq, Repr

/-- The environment's answers, as data of the model's own (R20, R441, R442; log entries 5 and 6). Past the end of a
list the answer is a free value of Config, applied to the counter. -/
structure Inputs where
  /-- the key snapshots of the coming steps, the next one first -/
  keys : List KeySnapshot
  /-- how many snapshots are spent -/
  keyTick : Nat
  /-- the random bytes of the coming draws, the next one first -/
  rands : List Byte
  /-- how many bytes are drawn -/
  randTick : Nat
  deriving DecidableEq, Repr

/-- The operations the driver can call (R440, R445 `op` and `rst`); reading an output is no operation of the core. -/
inductive DriverOp where
  /-- nothing is called (R445 `op = none`) -/
  | idle
  /-- `reset()` (R470) -/
  | reset
  /-- `load(bytes)` (R475) -/
  | load (bytes : List Byte)
  /-- `step()` (R160) -/
  | step
  /-- `tick_timers(elapsed_ms)` (R421) -/
  | tick (elapsedMs : Nat)
  deriving DecidableEq, Repr

/-- The state. The first thirteen fields are the tuple of R30; the others are the model's own. -/
structure State where
  /-- memory (R49) -/
  mem : Memory
  /-- the general registers V0 to VF (R31) -/
  V : Vector Byte 16
  /-- the address register (R40) -/
  I : Word
  /-- the program counter (R35) -/
  pc : Word
  /-- the return-address slots (R41) -/
  stack : Vector Word 16
  /-- the number of active slots, 0 to 16 (R42, R43) -/
  sp : Fin 17
  /-- the delay timer (R44) -/
  DT : Byte
  /-- the sound timer (R45) -/
  ST : Byte
  /-- the display (R51) -/
  disp : Display
  /-- the key-wait target (R46) -/
  kwt : Option Reg
  /-- none while running, the fault record in the halted state (R47) -/
  halt : Option FaultRecord
  /-- the warning log, oldest entry first (R48, R410) -/
  wlog : List WarnEntry
  /-- the Timer Clock's remainder, 0 to 999 units of 1/60000 s (R53) -/
  tacc : Fin 1000
  /-- MODEL: TONE_STOP events emitted since reset (R422, R443; log entry 9) -/
  toneStops : Nat
  /-- MODEL: the result of `load` since reset (R443, R476; log entry 9) -/
  loadOk : Option Bool
  /-- MODEL: the open parameter (R14; log entry 1), which no operation writes -/
  params : Params
  /-- MODEL: the environment's answers (R441, R442; log entries 5 and 6) -/
  inputs : Inputs
  /-- MODEL: the operations the driver calls next, then `step()` for ever (R444; log entry 7) -/
  schedule : List DriverOp
  /-- MODEL: a `load` may still come: nothing was loaded and no step ran since reset (R447, R478; log entry 8) -/
  loadOpen : Bool
  deriving DecidableEq, Repr

/-- The reasons a step ends in a fault outcome: there is none. The spec describes what every fault of the core
leaves (R404, R405), so taking one is a next state, the halted state, and no step ends here (log entry 10). Safe. -/
inductive Fault where
  deriving DecidableEq, Repr

/-- The reasons a step is refused. -/
inductive Refusal where
  /-- An instruction without a meaning, by its mnemonic; raised by a refused arm of `exec` only. Safe: the model
  stops where the hardware goes on. No arm raises it. -/
  | notModelled (mnemonic : String)
  /-- The driver calls `load` a second time or after a step, a breach of its duty that R447 assumes never to happen
  ("no move in the model"); raised by `runOp` only (log entry 8). Safe: a claim says nothing of such a run. -/
  | loadOutOfTurn
  deriving DecidableEq, Repr

/-- The state after reset (R55, R470): every register, slot, timer and cell 0, the font in memory (the reset byte of
every address, so no address is listed), `pc` at PROGRAM_LOAD_OFFSET, no key-wait, running, no warnings. The model's
own fields: the default parameter, no answer of the environment fixed, nothing scheduled, a load still open. -/
def State.reset : State where
  mem := []
  V := Vector.replicate 16 0
  I := 0
  pc := BitVec.ofNat 16 Config.loadOffset
  stack := Vector.replicate 16 0
  sp := 0
  DT := 0
  ST := 0
  disp := Vector.replicate 32 (Vector.replicate 64 false)
  kwt := none
  halt := none
  wlog := []
  tacc := 0
  toneStops := 0
  loadOk := none
  params := defaultParams
  inputs := { keys := [], keyTick := 0, rands := [], randTick := 0 }
  schedule := []
  loadOpen := true

end Sys2Proof.Machine
end

