-- ==== Sys2Proof/Machine/Ops.lean ====
section
/-! DEFINITION. The named operations over memory, the registers, the stack, the display, the logs and the inputs;
taking a fault (60_exceptions.md R404, R405) as one shared operation, and beside it `reset()`, the only way out of
the halted state (R407, R470). -/

namespace Sys2Proof.Machine

/-! ### Memory (20_memory.md) -/

/-- The byte at an address, as last written or its reset byte (R90). Total: the bounds check is
`firstOutOfRange`. -/
def Memory.read : Memory → Nat → Byte
  | [], a => resetByte a
  | (k, v) :: rest, a => if k = a then v else Memory.read rest a

/-- Write one byte, keeping the canonical form: rising addresses, no entry equal to the reset byte. -/
def Memory.write : Memory → Nat → Byte → Memory
  | [], a, v => if v = resetByte a then [] else [(a, v)]
  | (k, w) :: rest, a, v =>
    if a < k then
      if v = resetByte a then (k, w) :: rest else (a, v) :: (k, w) :: rest
    else if a = k then
      if v = resetByte a then rest else (a, v) :: rest
    else (k, w) :: Memory.write rest a v

/-- Write consecutive bytes from an address upwards, in order (R89). -/
def Memory.writeBytes (m : Memory) (a : Nat) : List Byte → Memory
  | [] => m
  | b :: bs => Memory.writeBytes (m.write a b) (a + 1) bs

/-- Every listed address is at least `lo` and below MEM_SIZE, addresses rise, and no entry equals its reset byte. -/
def Memory.wfFrom : Nat → Memory → Bool
  | _, [] => true
  | lo, (k, v) :: rest =>
    decide (lo ≤ k) && decide (k < Config.memSize) && decide (v ≠ resetByte k) && Memory.wfFrom (k + 1) rest

/-- The canonical form of memory. -/
def Memory.wf (m : Memory) : Bool := Memory.wfFrom 0 m

/-- The least of the addresses `base, base + 1, …, base + count - 1` that is at or above MEM_SIZE: the bounds check
of an access to `count` bytes (R86), with addresses computed without wrap-around (R87). -/
def firstOutOfRange (base count : Nat) : Option Nat :=
  ((List.range count).map (base + ·)).find? (fun a => Config.memSize ≤ a)

/-! ### Registers and stack (10_state.md) -/

/-- `V[r]` -/
def State.getV (s : State) (r : Reg) : Byte := s.V[r.val]

/-- `V[r] <- v` -/
def State.setV (s : State) (r : Reg) (v : Byte) : State := { s with V := s.V.set r.val v }

/-- The flag write `V[15] <- f` (R32, R34). -/
def State.setVF (s : State) (f : Byte) : State := s.setV Reg.VF f

/-- Advance the program counter by one instruction, truncated to 16 bits (R169; R174 in a taken skip). -/
def State.advance (s : State) : State := { s with pc := s.pc + 2 }

/-- Write the program counter. -/
def State.setPc (s : State) (target : Word) : State := { s with pc := target }

/-- Write the address register. -/
def State.setI (s : State) (v : Word) : State := { s with I := v }

/-- Append an entry to the warning log (R25, R410). -/
def State.warn (s : State) (code : WarnCode) (pc : Word) : State :=
  { s with wlog := s.wlog ++ [{ code := code, pc := pc }] }

/-- Push the program counter, or log STACK_OVERFLOW for the instruction at `A` and leave the stack (R232, D15). -/
def State.pushPc (s : State) (A : Word) : State :=
  if h : s.sp.val < Config.stackDepth then
    { s with stack := s.stack.set s.sp.val s.pc h, sp := ⟨s.sp.val + 1, Nat.succ_lt_succ h⟩ }
  else s.warn .stackOverflow A

/-- Pop the program counter, or log STACK_UNDERFLOW for the instruction at `A` and leave stack and program counter
(R230, D16). The popped slot keeps its value (R41). -/
def State.popPc (s : State) (A : Word) : State :=
  if h : s.sp.val = 0 then s.warn .stackUnderflow A
  else
    { s with
      pc := s.stack[s.sp.val - 1]'(by have := s.sp.isLt; omega)
      sp := ⟨s.sp.val - 1, by have := s.sp.isLt; omega⟩ }

/-! ### Display (41_display.md) -/

/-- The display with every cell 0 (R200). -/
def Display.clear : Display := Vector.replicate 32 (Vector.replicate 64 false)

/-- `Disp[r][c]` -/
def Display.cell (d : Display) (r : Fin 32) (c : Fin 64) : Bool := d[r.val][c.val]

/-- `Disp[r][c] <- Disp[r][c] ^ 1` -/
def Display.toggle (d : Display) (r : Fin 32) (c : Fin 64) : Display :=
  d.set r.val (d[r.val].set c.val (!d[r.val][c.val]))

/-- The row of a natural coordinate, modulo DISP_H (R203). -/
def wrapRow (y : Nat) : Fin 32 := ⟨y % Config.dispH, Nat.mod_lt _ (by decide)⟩

/-- The column of a natural coordinate, modulo DISP_W (R203). -/
def wrapCol (x : Nat) : Fin 64 := ⟨x % Config.dispW, Nat.mod_lt _ (by decide)⟩

/-- One set sprite bit at `(x, y)`: collision is OR-accumulated, then the cell is XORed with 1 (R204). -/
def plotPixel (acc : Display × Bool) (x y : Nat) : Display × Bool :=
  (acc.1.toggle (wrapRow y) (wrapCol x), acc.2 || acc.1.cell (wrapRow y) (wrapCol x))

/-- One sprite row at `(vx, y)`: eight pixels left to right, bit 7 leftmost (R202). -/
def plotRow (acc : Display × Bool) (vx y : Nat) (b : Byte) : Display × Bool :=
  (List.range 8).foldl (fun a c => if b.getLsbD (7 - c) then plotPixel a (vx + c) y else a) acc

/-- The rows of a sprite top to bottom, the first at `y` (R201). -/
def plotRows (acc : Display × Bool) (vx y : Nat) : List Byte → Display × Bool
  | [] => acc
  | b :: rest => plotRows (plotRow acc vx y b) vx (y + 1) rest

/-! ### The environment's answers (60_exceptions.md R441, R442) -/

/-- The key snapshot of the coming step: the next fixed answer, or a free value. -/
def State.heldNow (s : State) : KeySnapshot := s.inputs.keys.headD (Config.freeKeys s.inputs.keyTick)

/-- `Held(k)` in the coming step. -/
def State.held (s : State) (k : Key) : Bool := s.heldNow.getLsbD k.val

/-- `RandomByte()`: the next fixed answer, or a free value. -/
def State.randomByte (s : State) : Byte := s.inputs.rands.headD (Config.freeRandom s.inputs.randTick)

/-- Spend one random byte. -/
def State.spendRandom (s : State) : State :=
  { s with inputs := { s.inputs with rands := s.inputs.rands.tail, randTick := s.inputs.randTick + 1 } }

/-- The end of one call of `step()`: its key snapshot is spent, so that the next step asks afresh, and `load` is no
longer allowed (R447). -/
def State.endStep (s : State) : State :=
  { s with
    inputs := { s.inputs with keys := s.inputs.keys.tail, keyTick := s.inputs.keyTick + 1 }
    loadOpen := false }

/-- The operations the driver still has to call. -/
def State.withSchedule (s : State) (ops : List DriverOp) : State := { s with schedule := ops }

/-! ### Faults (60_exceptions.md section 2) -/

/-- Taking a fault (R404, R405): `halt` receives the record, with `pc` the address the program counter holds, and
nothing else changes. It is applied to the state before the faulting instruction's effects, so the fault is precise
(R172). -/
def raiseFault (code : FaultCode) (bytes : Option (Byte × Byte)) (addr : Option Nat) (s : State) : State :=
  { s with halt := some { code := code, pc := s.pc, bytes := bytes, addr := addr } }

/-- `reset()` (R470): every piece of the block's state takes its reset value. There is no return from a fault but
this (R407). What belongs to the environment, the parameter, its answers and the schedule, is kept. -/
def resetMachine (s : State) : State :=
  { State.reset with params := s.params, inputs := s.inputs, schedule := s.schedule }

/-- A next state passed on by `f`, another outcome unchanged. -/
def mapNext {φ ρ : Type} (f : State → State) : Host.Outcome State φ ρ → Host.Outcome State φ ρ
  | .next s => .next (f s)
  | .fault r => .fault r
  | .refused r => .refused r

end Sys2Proof.Machine
end

