-- ==== Sys2Proof/Machine/Operands.lean ====
section
/-! DEFINITION. The operand forms: immediates (30_encoding.md R124), the one addressing mode, register-indirect
through I with an unsigned offset (44_index_memory.md), the glyph address, the decimal digits, and the register
range V0 to Vx. -/

namespace Sys2Proof.Machine

/-- `zext_16(nnn)`: a 12-bit address as 16 bits (R124). -/
def zextAddr (nnn : Addr) : Word := nnn.setWidth 16

/-- `zext_16(b)`: a byte as 16 bits. -/
def zextByte (b : Byte) : Word := b.setWidth 16

/-- The address of the first byte of an access through I, a natural number: no wrap-around (R87). -/
def State.baseAddr (s : State) : Nat := s.I.toNat

/-- How many registers V0 to Vx are. -/
def regCount (x : Reg) : Nat := x.val + 1

/-- The values of V0 to Vx, in order (R334). -/
def State.regsUpTo (s : State) (x : Reg) : List Byte := s.V.toList.take (regCount x)

/-- The bytes at `base` to `base + count - 1`, in order (R89). -/
def Memory.readBytes (m : Memory) (base count : Nat) : List Byte :=
  (List.range count).map (fun k => m.read (base + k))

/-- V0 to Vx read from memory at `base`, the registers above Vx as they were (R335). -/
def loadRegs (V : Vector Byte 16) (x : Reg) (m : Memory) (base : Nat) : Vector Byte 16 :=
  Vector.ofFn (fun r => if r.val ≤ x.val then m.read (base + r.val) else V[r.val])

/-- The address of the glyph of a value, `FONT_BASE + v * GLYPH_SIZE`, the value not masked (R332, D39). -/
def glyphAddr (v : Byte) : Word := BitVec.ofNat 16 (Config.fontBase + v.toNat * Config.glyphSize)

/-- The hundreds, tens and ones digits of a value (R333). -/
def bcdDigits (v : Byte) : List Byte :=
  [BitVec.ofNat 8 (v.toNat / 100), BitVec.ofNat 8 (v.toNat / 10 % 10), BitVec.ofNat 8 (v.toNat % 10)]

/-- A key number as the byte the key-wait writes (R163). -/
def keyByte (k : Key) : Byte := BitVec.ofNat 8 k.val

/-- A register's value read as a key number, none above 15 (R370, R371). -/
def keyOf (v : Byte) : Option Key := if h : v.toNat < 16 then some ⟨v.toNat, h⟩ else none

end Sys2Proof.Machine
end

