-- ==== Sys2Proof/Machine/Exec.lean ====
section
/-! DEFINITION. The operations the meanings share: a conditional skip, a write to the sound timer, and an access
through I with its bounds check. A meaning runs the advance of the program counter (R169) and the execute phase
(R170) on a state whose `pc` is the address A of the instruction. -/

namespace Sys2Proof.Machine

/-- What one instruction answers. -/
abbrev Result := Host.Outcome State Fault Refusal

/-- "Skip next instruction" when the condition holds: 2 more on top of the advance (R174). -/
def State.skipIf (s : State) (c : Bool) : State := { s with pc := if c then s.pc + 2 else s.pc }

/-- A write to the sound timer, with the one-shot TONE_STOP when it goes from non-zero to zero (R375, R422). -/
def State.setST (s : State) (v : Byte) : State :=
  { s with ST := v, toneStops := if s.ST ≠ 0 ∧ v = 0 then s.toneStops + 1 else s.toneStops }

/-- An access by instruction `i` to `count` bytes from I: every address is checked before anything changes; one at
or above MEM_SIZE raises MEM_BOUNDS with the first such address (R86, R405), otherwise the effect happens. -/
def accessThroughI (i : Instr) (count : Nat) (s effect : State) : Result :=
  match firstOutOfRange s.baseAddr count with
  | some a => .next (raiseFault .memBounds (some (instrBytes i)) (some a) s)
  | none => .next effect

/-- A skip of instruction `i` on the state of key V[x]: a value above 15 raises KEY_RANGE with that value (R370,
R371, R405), otherwise the instruction skips when the key's state is `wanted`. -/
def skipOnKey (i : Instr) (x : Reg) (wanted : Bool) (s : State) : Result :=
  match keyOf (s.getV x) with
  | none => .next (raiseFault .keyRange (some (instrBytes i)) (some (s.getV x).toNat) s)
  | some k => .next (s.advance.skipIf (s.held k == wanted))

end Sys2Proof.Machine
end

