-- ==== Sys2Proof/Machine/Alu.lean ====
section
/-! DEFINITION. The meanings of the register and arithmetic instructions (43_alu.md). The statements of one
instruction run in the order the rule writes them, each reading what the earlier ones left (R23, D8); where a rule
takes operand values "before the op", they are read from the state before any write. -/

namespace Sys2Proof.Machine

/-- 6xkk LD Vx, byte (R270). -/
def execLdImm (x : Reg) (kk : Byte) (s : State) : Result := .next (s.advance.setV x kk)

/-- 7xkk ADD Vx, byte (R271): modulo 256, no flag. -/
def execAddImm (x : Reg) (kk : Byte) (s : State) : Result := .next (s.advance.setV x (s.getV x + kk))

/-- 8xy0 LD Vx, Vy (R272). -/
def execLdReg (x y : Reg) (s : State) : Result := .next (s.advance.setV x (s.getV y))

/-- 8xy1 OR Vx, Vy (R273). -/
def execOrReg (x y : Reg) (s : State) : Result := .next (s.advance.setV x (s.getV x ||| s.getV y))

/-- 8xy2 AND Vx, Vy (R274). -/
def execAndReg (x y : Reg) (s : State) : Result := .next (s.advance.setV x (s.getV x &&& s.getV y))

/-- 8xy3 XOR Vx, Vy (R275). -/
def execXorReg (x y : Reg) (s : State) : Result := .next (s.advance.setV x (s.getV x ^^^ s.getV y))

/-- 8xy4 ADD Vx, Vy (R276): the sum, then the carry to VF. -/
def execAddReg (x y : Reg) (s : State) : Result :=
  .next ((s.advance.setV x (s.getV x + s.getV y)).setVF (carryFlag (s.getV x) (s.getV y)))

/-- 8xy5 SUB Vx, Vy (R277): V[x] - V[y], then no-borrow to VF. -/
def execSub (x y : Reg) (s : State) : Result :=
  .next ((s.advance.setV x (s.getV x - s.getV y)).setVF (noBorrowFlag (s.getV x) (s.getV y)))

/-- 8xy6 SHR Vx (R278): the bit moved out to VF, then the shift of V[x] as that write left it (D8). -/
def execShr (x : Reg) (s : State) : Result :=
  let s1 := s.advance.setVF (lowBitOut (s.getV x))
  .next (s1.setV x (s1.getV x >>> 1))

/-- 8xy7 SUBN Vx, Vy (R279): V[y] - V[x], then no-borrow to VF. -/
def execSubn (x y : Reg) (s : State) : Result :=
  .next ((s.advance.setV x (s.getV y - s.getV x)).setVF (noBorrowFlag (s.getV y) (s.getV x)))

/-- 8xyE SHL Vx (R280): the bit moved out to VF, then the shift of V[x] as that write left it (D8). -/
def execShl (x : Reg) (s : State) : Result :=
  let s1 := s.advance.setVF (highBitOut (s.getV x))
  .next (s1.setV x (s1.getV x <<< 1))

/-- Cxkk RND Vx, byte (R281): the drawn byte, masked. -/
def execRnd (x : Reg) (kk : Byte) (s : State) : Result :=
  .next (s.advance.spendRandom.setV x (s.randomByte &&& kk))

end Sys2Proof.Machine
end

