-- ==== Sys2Proof/Machine/Control.lean ====
section
/-! DEFINITION. The meanings of the control-flow instructions (42_control_flow.md). -/

namespace Sys2Proof.Machine

/-- 00EE RET (R230). -/
def execRet (s : State) : Result := .next (s.advance.popPc s.pc)

/-- 1nnn JP addr (R231): the target overwrites the advance. -/
def execJp (nnn : Addr) (s : State) : Result := .next (s.advance.setPc (zextAddr nnn))

/-- 2nnn CALL addr (R232): push the advanced program counter, or log the overflow; jump in both cases (D15). -/
def execCall (nnn : Addr) (s : State) : Result := .next ((s.advance.pushPc s.pc).setPc (zextAddr nnn))

/-- 3xkk SE Vx, byte (R233). -/
def execSeImm (x : Reg) (kk : Byte) (s : State) : Result := .next (s.advance.skipIf (s.getV x == kk))

/-- 4xkk SNE Vx, byte (R234). -/
def execSneImm (x : Reg) (kk : Byte) (s : State) : Result := .next (s.advance.skipIf (s.getV x != kk))

/-- 5xyn SE Vx, Vy (R235); `n` is not read (D29). -/
def execSeReg (x y : Reg) (s : State) : Result := .next (s.advance.skipIf (s.getV x == s.getV y))

/-- 9xyn SNE Vx, Vy (R236); `n` is not read (D29). -/
def execSneReg (x y : Reg) (s : State) : Result := .next (s.advance.skipIf (s.getV x != s.getV y))

/-- Bnnn JP V0, addr (R237): `trunc_16(nnn + V[0])`. -/
def execJpV0 (nnn : Addr) (s : State) : Result :=
  .next (s.advance.setPc (zextAddr nnn + zextByte (s.getV 0)))

end Sys2Proof.Machine
end

