-- ==== Sys2Proof/Machine/Display.lean ====
section
/-! DEFINITION. The meanings of the display instructions (41_display.md). -/

namespace Sys2Proof.Machine

/-- 00E0 CLS (R200): every cell 0. -/
def execCls (s : State) : Result := .next { s.advance with disp := Display.clear }

/-- The display and the collision of drawing the `n` rows at I with the left top at (V[x], V[y]) (R201 to R206). -/
def State.drawn (s : State) (x y : Reg) (n : Nibble) : Display × Bool :=
  plotRows (s.disp, false) (s.getV x).toNat (s.getV y).toNat (s.mem.readBytes s.baseAddr n.toNat)

/-- Dxyn DRW (R201): V[x] and V[y] are read first (R205), the row addresses checked before any change (R207), VF
written once after the last row (R204). -/
def execDrw (x y : Reg) (n : Nibble) (s : State) : Result :=
  accessThroughI (.drw x y n) n.toNat s
    (State.setVF { s.advance with disp := (s.drawn x y n).1 } (flagByte (s.drawn x y n).2))

end Sys2Proof.Machine
end

