-- ==== Sys2Proof/Machine/IndexMemory.lean ====
section
/-! DEFINITION. The meanings of the address-register and memory instructions (44_index_memory.md). -/

namespace Sys2Proof.Machine

/-- Annn LD I, addr (R330). -/
def execLdI (nnn : Addr) (s : State) : Result := .next (s.advance.setI (zextAddr nnn))

/-- Fx1E ADD I, Vx (R331): modulo 65536, VF unchanged (D11). -/
def execAddI (x : Reg) (s : State) : Result := .next (s.advance.setI (s.I + zextByte (s.getV x)))

/-- Fx29 LD F, Vx (R332). -/
def execLdF (x : Reg) (s : State) : Result := .next (s.advance.setI (glyphAddr (s.getV x)))

/-- Fx33 LD B, Vx (R333): the three digits at I, I + 1 and I + 2. -/
def execLdB (x : Reg) (s : State) : Result :=
  accessThroughI (.ldB x) 3 s
    { s.advance with mem := s.mem.writeBytes s.baseAddr (bcdDigits (s.getV x)) }

/-- Fx55 LD [I], Vx (R334): V0 to Vx at I and up; I unchanged (D10). -/
def execLdMemVx (x : Reg) (s : State) : Result :=
  accessThroughI (.ldMemVx x) (regCount x) s
    { s.advance with mem := s.mem.writeBytes s.baseAddr (s.regsUpTo x) }

/-- Fx65 LD Vx, [I] (R335): V0 to Vx from I and up; I unchanged (D10). -/
def execLdVxMem (x : Reg) (s : State) : Result :=
  accessThroughI (.ldVxMem x) (regCount x) s
    { s.advance with V := loadRegs s.V x s.mem s.baseAddr }

end Sys2Proof.Machine
end

