-- ==== Sys2Proof/Machine/KeysTimers.lean ====
section
/-! DEFINITION. The meanings of the key and timer instructions (45_timers_keys.md). -/

namespace Sys2Proof.Machine

/-- Ex9E SKP Vx (R370): skip when the key is held. -/
def execSkp (x : Reg) (s : State) : Result := skipOnKey (.skp x) x true s

/-- ExA1 SKNP Vx (R371): skip when the key is not held. -/
def execSknp (x : Reg) (s : State) : Result := skipOnKey (.sknp x) x false s

/-- Fx07 LD Vx, DT (R372). -/
def execLdVxDt (x : Reg) (s : State) : Result := .next (s.advance.setV x s.DT)

/-- Fx0A LD Vx, K (R373): set the key-wait target; the wait holds the later steps (R162 to R164). -/
def execLdVxK (x : Reg) (s : State) : Result := .next { s.advance with kwt := some x }

/-- Fx15 LD DT, Vx (R374). -/
def execLdDtVx (x : Reg) (s : State) : Result := .next { s.advance with DT := s.getV x }

/-- Fx18 LD ST, Vx (R375). -/
def execLdStVx (x : Reg) (s : State) : Result := .next (s.advance.setST (s.getV x))

end Sys2Proof.Machine
end

