-- ==== Sys2Proof/Machine/Loader.lean ====
section
/-! DEFINITION. The program load (70_reset_and_hazards.md R475, R476). -/

namespace Sys2Proof.Machine

/-- The greatest length of a program: STACK_REGION_OFFSET - PROGRAM_LOAD_OFFSET (R476). -/
def Params.maxProgram (p : Params) : Nat := p.stackRegionOffset - Config.loadOffset

/-- `load(bytes)`: copy the bytes to PROGRAM_LOAD_OFFSET and up (R475), or, when there are too many, copy nothing
and log LOAD_TOO_LARGE with pc = PROGRAM_LOAD_OFFSET (R476). The result is reported in `loadOk`. -/
def loadProgram (bytes : List Byte) (s : State) : State :=
  if Params.maxProgram s.params < bytes.length then
    { s.warn .loadTooLarge (BitVec.ofNat 16 Config.loadOffset) with loadOk := some false, loadOpen := false }
  else
    { s with mem := s.mem.writeBytes Config.loadOffset bytes, loadOk := some true, loadOpen := false }

end Sys2Proof.Machine
end

