-- ==== Sys2Proof/Machine/TimerClock.lean ====
section
/-! DEFINITION. The Timer Clock (60_exceptions.md section 5). It touches only DT, ST, its remainder and the TONE_STOP
output (R98). -/

namespace Sys2Proof.Machine

/-- One tick (R420): each non-zero timer goes down by one; ST reaching zero emits TONE_STOP. -/
def State.tick (s : State) : State :=
  let s1 := if s.DT ≠ 0 then { s with DT := s.DT - 1 } else s
  if s1.ST ≠ 0 then s1.setST (s1.ST - 1) else s1

/-- `n` ticks. -/
def State.ticks : Nat → State → State
  | 0, s => s
  | n + 1, s => State.ticks n s.tick

/-- `tick_timers(elapsed_ms)` (R421): exact integers in units of 1/60000 s. -/
def tickTimers (elapsedMs : Nat) (s : State) : State :=
  let t := s.tacc.val + Config.timerHz * elapsedMs
  State.ticks (t / Config.tickUnits) { s with tacc := ⟨t % Config.tickUnits, Nat.mod_lt _ (by decide)⟩ }

end Sys2Proof.Machine
end

