-- ==== Sys2Proof/Machine/Cycle.lean ====
section
/-! DEFINITION. The step state machine (40_execution_cycle.md R160 to R173) and the driver's operations
(60_exceptions.md R440). -/

namespace Sys2Proof.Machine

/-- The least held key of a snapshot: the scan in the order 0, 1, …, 15 (R162, D6). -/
def firstHeld (snapshot : KeySnapshot) : Option Key :=
  (List.finRange 16).find? (fun k => snapshot.getLsbD k.val)

/-- The key-wait phase (R162 to R164): with no wait pending the state as it is; with a wait and a held key the
state with the key stored and the wait cleared; none when the step is held. -/
def resolveKeyWait (s : State) : Option State :=
  match s.kwt with
  | none => some s
  | some r =>
    match firstHeld s.heldNow with
    | none => none
    | some k => some { s.setV r (keyByte k) with kwt := none }

/-- What a fetch gives: the two bytes, or the fault that ends it. -/
inductive FetchResult where
  /-- the bytes at `pc` and `pc + 1` -/
  | bytes (b0 b1 : Byte)
  /-- the fetch faults -/
  | fails (code : FaultCode) (addr : Option Nat)
  deriving DecidableEq, Repr

/-- The reserved-fetch check and the fetch (R165, R166); the address arithmetic is on natural numbers (R87). -/
def fetch (s : State) : FetchResult :=
  if s.pc.toNat < Config.loadOffset then .fails .reservedFetch none
  else
    match firstOutOfRange s.pc.toNat 2 with
    | some a => .fails .memBounds (some a)
    | none => .bytes (s.mem.read s.pc.toNat) (s.mem.read (s.pc.toNat + 1))

/-- The boundary clamp after the instruction at `A` (R171, D17). -/
def State.clampPc (A : Word) (s : State) : State :=
  if s.params.stackRegionOffset ≤ s.pc.toNat then
    (s.warn .pcBoundary A).setPc (BitVec.ofNat 16 (s.params.stackRegionOffset - 2))
  else s

/-- What follows the execute phase of the instruction at `A`: the clamp, unless the instruction faulted (R172), and
the end of the step. -/
def retire (A : Word) (s : State) : State :=
  if s.halt.isSome then s.endStep else (s.clampPc A).endStep

/-- Fetch, decode, execute and clamp (R165 to R171). -/
def stepInstruction (s : State) : Result :=
  match fetch s with
  | .fails code addr => .next (raiseFault code none addr s).endStep
  | .bytes b0 b1 =>
    match decode (wordOf b0 b1) with
    | .error _ => .next (raiseFault .unimplemented (some (b0, b1)) none s).endStep
    | .ok i => mapNext (retire s.pc) (exec i s)

/-- `step()` (R160, R173): nothing in the halted state (R161); while a key-wait holds, nothing but the key snapshot
spent (R164); otherwise one instruction. -/
def dispatcherStep (s : State) : Result :=
  if s.halt.isSome then .next s
  else
    match resolveKeyWait s with
    | none => .next s.endStep
    | some s1 => stepInstruction s1

/-- One operation of the driver (R440). A `load` out of turn is no move of the model (R447). -/
def runOp (op : DriverOp) (s : State) : Result :=
  match op with
  | .idle => .next s
  | .reset => .next (resetMachine s)
  | .load bytes => if s.loadOpen then .next (loadProgram bytes s) else .refused .loadOutOfTurn
  | .step => dispatcherStep s
  | .tick elapsedMs => .next (tickTimers elapsedMs s)

/-- The driver's next operation: the head of its schedule, and `step()` when the schedule is spent (R444). -/
def driverStep (s : State) : Result :=
  match s.schedule with
  | [] => dispatcherStep s
  | op :: rest => runOp op (s.withSchedule rest)

/-- Where `withFetchWord` stores an instruction: at `pc` where a fetch may be, else at PROGRAM_LOAD_OFFSET. -/
def State.fetchPc (s : State) : Word :=
  if Config.loadOffset ≤ s.pc.toNat ∧ s.pc.toNat + 1 < Config.memSize then s.pc
  else BitVec.ofNat 16 Config.loadOffset

/-- The state made ready to fetch the word next: running, no key-wait, nothing scheduled, the two bytes at the
fetch address. -/
def State.readyToRun (s : State) (w : Word) : State :=
  { s with
    mem := s.mem.writeBytes s.fetchPc.toNat [hiByte w, loByte w]
    pc := s.fetchPc
    halt := none
    kwt := none
    schedule := [] }

end Sys2Proof.Machine
end

