-- ==== Sys2Proof/Machine/Step.lean ====
section
/-! DEFINITION. The machine's one step, and the placing of an instruction where it fetches next. -/

namespace Sys2Proof.Machine

/-- One operation of the driver: `step()` unless the schedule names another. -/
def step (s : State) : Host.Outcome State Fault Refusal := driverStep s

/-- The state with a table word stored where `step` fetches next (log entry 11). -/
def State.withFetchWord (s : State) (nbits w : Nat) : State :=
  s.readyToRun (BitVec.ofNat 16 (w % 2 ^ nbits))

end Sys2Proof.Machine
end

