-- ==== Sys2Proof/Machine/Interface.lean ====
section
/-! DEFINITION. What the environment may read (60_exceptions.md R443) and the signal-level view of it (R445, D38). -/

namespace Sys2Proof.Machine

/-- The number of a fault code (R401, D25). -/
def FaultCode.number : FaultCode → BitVec 3
  | .unimplemented => 1
  | .memBounds => 2
  | .reservedFetch => 3
  | .keyRange => 4

/-- The number of a warning code (R402, D25). -/
def WarnCode.number : WarnCode → BitVec 3
  | .stackOverflow => 1
  | .stackUnderflow => 2
  | .pcBoundary => 3
  | .loadTooLarge => 4

/-- The tone-active level `ST != 0` (R423). -/
def State.tone (s : State) : Bool := s.ST != 0

/-- The display as the flat grid of 2048 cells, row-major (R52). -/
def State.flatDisplay (s : State) : Vector Bool 2048 := s.disp.flatten

/-- The level outputs of R445. A fault output that is not valid reads 0 (log entry 14). -/
structure Outputs where
  /-- `disp[2047:0]` -/
  disp : Vector Bool 2048
  /-- `tone` -/
  tone : Bool
  /-- `halted` -/
  halted : Bool
  /-- `fault_code[2:0]` -/
  faultCode : BitVec 3
  /-- `fault_pc[15:0]` -/
  faultPc : Word
  /-- `fault_bytes_valid` -/
  faultBytesValid : Bool
  /-- `fault_bytes[15:0]`, b0 in the high half (log entry 15) -/
  faultBytes : Word
  /-- `fault_addr_valid` -/
  faultAddrValid : Bool
  /-- `fault_addr[16:0]` -/
  faultAddr : BitVec 17
  /-- `load_ok` -/
  loadOk : Bool
  deriving DecidableEq, Repr

/-- The level outputs between two operations (R443, R445). DESIGN CHOICE, log entry 15: R445 gives `fault_bytes[15:0]`
only its width, and the model puts the byte fetched first, b0, in its high half. -/
def State.outputs (s : State) : Outputs :=
  let bytes : Option (Byte × Byte) := s.halt.bind FaultRecord.bytes
  let addr : Option Nat := s.halt.bind FaultRecord.addr
  { disp := s.flatDisplay
    tone := s.tone
    halted := s.halt.isSome
    faultCode := (s.halt.map (fun r => r.code.number)).getD 0
    faultPc := (s.halt.map FaultRecord.pc).getD 0
    faultBytesValid := bytes.isSome
    faultBytes := (bytes.map (fun b => b.1 ++ b.2)).getD 0
    faultAddrValid := addr.isSome
    faultAddr := BitVec.ofNat 17 (addr.getD 0)
    loadOk := s.loadOk.getD false }

/-- The warning pulses of the operation that led from `s` to `t`: one per entry it logged (R445 `warn_valid`,
`warn_code`, `warn_pc`). -/
def warnPulses (s t : State) : List (BitVec 3 × Word) :=
  (t.wlog.drop s.wlog.length).map (fun e => (e.code.number, e.pc))

/-- How many TONE_STOP pulses the operation that led from `s` to `t` gave (R445 `tone_stop`). -/
def toneStopPulses (s t : State) : Nat := t.toneStops - s.toneStops

end Sys2Proof.Machine
end

