-- ==== Sys2Proof/Safety.lean ====
section
/-! DEFINITION. What counts as a safe state and a good run, in the terms claims use: the invariant every operation
keeps, a clean state (no fault, no warning: the premise D12 to D17 advise), the registers an instruction writes, and
a run with its good and its faulted end. -/

namespace Sys2Proof.Machine

/-- The invariant: the open parameter has a value R14 allows, memory is in its canonical form, and the program
counter is below the stack-region boundary ("must stay below the stack-region boundary", R39). -/
structure State.Inv (s : State) : Prop where
  /-- R14 -/
  paramsLegal : s.params.legal = true
  /-- the canonical form -/
  memWf : s.mem.wf = true
  /-- R39, R171 -/
  pcBelow : s.pc.toNat < s.params.stackRegionOffset

/-- No fault and no warning (93_implementation_defined.md U14 to U16). -/
def State.clean (s : State) : Bool := s.halt.isNone && s.wlog.isEmpty

/-- The state `step()` runs an instruction in: running, no key-wait pending, and the driver calls `step()`. -/
def State.runs (s : State) : Bool := s.halt.isNone && s.kwt.isNone && s.schedule.isEmpty

/-- The frame of an instruction that writes registers only: `t` is `s` with the program counter at the next
instruction and no register changed but those of `rs`. Everything else, every byte of memory among it, is as in
`s`. -/
def OnlyRegsChange (s t : State) (rs : List Reg) : Prop :=
  t = { s with V := t.V, pc := s.pc + 2 } ∧ ∀ r : Reg, r ∉ rs → t.getV r = s.getV r

/-- Whether a sprite of `n` rows at I, drawn with its left top at (V[x], V[y]), has a set bit on the cell of row `r`
and column `c` (R202, R203): the cell's distances below and right of the left top, modulo the display's size, are a
row of the sprite and one of its eight columns, and that bit of that row's byte, bit 7 leftmost, is 1. -/
def State.spriteCovers (s : State) (x y : Reg) (n : Nibble) (r : Fin 32) (c : Fin 64) : Prop :=
  let down := (r.val + (32 - (s.getV y).toNat % 32)) % 32
  let right := (c.val + (64 - (s.getV x).toNat % 64)) % 64
  down < n.toNat ∧ right < 8 ∧ (s.mem.read (s.baseAddr + down)).getLsbD (7 - right) = true

/-- The general registers an instruction writes, the column "writes" of R33's table. The write of `Fx0A` comes when
the wait resolves, in a later step. -/
def writtenRegs : Instr → List Reg
  | .cls | .ret | .jp _ | .call _ | .ldI _ | .jpV0 _ => []
  | .seImm _ _ | .sneImm _ _ | .seReg _ _ _ | .sneReg _ _ _ | .skp _ | .sknp _ => []
  | .ldImm x _ | .addImm x _ | .rnd x _ | .ldVxDt x => [x]
  | .ldReg x _ | .orReg x _ | .andReg x _ | .xorReg x _ => [x]
  | .addReg x _ | .sub x _ | .shr x _ | .subn x _ | .shl x _ => [x, Reg.VF]
  | .drw _ _ _ => [Reg.VF]
  | .ldVxK _ | .ldDtVx _ | .ldStVx _ | .addI _ | .ldF _ | .ldB _ | .ldMemVx _ => []
  | .ldVxMem x => (List.finRange 16).filter (fun r => decide (r ≤ x))

/-! ### Runs (60_exceptions.md R446, D41) -/

/-- The operation the driver calls next. -/
def State.nextOp (s : State) : DriverOp := s.schedule.headD .step

/-- A state that a reset leaves, whatever the parameter, the environment's answers and the schedule are. -/
def State.justReset (s : State) : Bool := decide (s = resetMachine s)

/-- A point of a run: how many times the driver called `step()` since the reset, and the state. -/
structure RunPoint where
  /-- the calls of `step()` made -/
  steps : Nat
  /-- the state -/
  state : State
  deriving DecidableEq, Repr

/-- One more operation of a run. None where the run is over or says nothing: the core is halted (the run ended at
its fault), the next operation is a reset (another run begins), or the operation is no move of the model (R447). -/
def RunPoint.next (p : RunPoint) : Option RunPoint :=
  if p.state.halt.isSome || decide (p.state.nextOp = .reset) then none
  else
    match step p.state with
    | .next t => some ⟨if p.state.nextOp = .step then p.steps + 1 else p.steps, t⟩
    | .fault _ => none
    | .refused _ => none

/-- The point `count` operations further on. -/
def RunPoint.after : Nat → RunPoint → Option RunPoint
  | 0, p => some p
  | count + 1, p => p.next.bind (RunPoint.after count)

/-- A run from the reset state `s` to `t` in which the driver made `steps` calls of `step()`, with any other
operations among them. -/
def runsTo (s : State) (steps : Nat) (t : State) : Prop :=
  s.justReset = true ∧ ∃ count, RunPoint.after count ⟨0, s⟩ = some ⟨steps, t⟩

/-- The good end of a run after `steps` calls of `step()`: they were made and the core is not halted. It does not
say that the program finished its work, how many ticks ran, or that no key-wait is pending (R446). -/
def goodEnd (steps : Nat) (s t : State) : Prop := runsTo s steps t ∧ t.halt = none

/-- The faulted end of a run: the core is halted after `steps` calls of `step()`; never a good one. -/
def faultedEnd (steps : Nat) (s t : State) : Prop := runsTo s steps t ∧ t.halt ≠ none

end Sys2Proof.Machine
end

