-- ==== Sys2Proof/Certificates/Slice0/Obligations.lean ====
section
/-! DEFINITION. The statements for the provers. Each docstring names the rule of spec/ the statement rests on, and,
where a rule rests on a decision the spec marks as its own (`D<n>` of 92_eei_decisions.md) or on a choice of this
model, says so ("Spec's decision D<n>", "model's choice, log entry <n>"). A frame `t = { s with … }` says of every
field not named in it, memory and so the read of every byte among them, that it is as in `s`. -/

open Sys2Proof Sys2Proof.Machine

/-! ### Encoding -/

/-- 30_encoding.md R122: every field is the bits of the word its table gives, as numbers. -/
def Obligations.FieldsAreBitsOfTheWord : Prop :=
  ∀ w : Word,
    (fieldsOf w).group.toNat = w.toNat / 4096 ∧
    (fieldsOf w).x.toNat = w.toNat / 256 % 16 ∧
    (fieldsOf w).y.toNat = w.toNat / 16 % 16 ∧
    (fieldsOf w).n.toNat = w.toNat % 16 ∧
    (fieldsOf w).kk.toNat = w.toNat % 256 ∧
    (fieldsOf w).nnn.toNat = w.toNat % 4096 ∧
    (fieldsOf w).nnn = (fieldsOf w).x ++ (fieldsOf w).kk

/-- 30_encoding.md R122, R125: no bit of an encoding is dropped: decoding an encoded instruction gives it back, with
every operand at every value. -/
def Obligations.DecodeOfEncodeIsTheInstruction : Prop :=
  ∀ i : Instr, decode (encode i) = .ok i

/-- 30_encoding.md R122, R125, R134: each word has one meaning: an instruction decoded from a word encodes to it. -/
def Obligations.EncodeOfDecodeIsTheWord : Prop :=
  ∀ (w : Word) (i : Instr), decode w = .ok i → encode i = w

/-- 30_encoding.md R126 to R131 (R127 is the spec's decision D29): the words that are no instruction are exactly
those of groups 0, 8, E and F whose second field is not listed. -/
def Obligations.DecodeRejectsExactlyTheIllegalWords : Prop :=
  ∀ w : Word,
    (∃ e, decode w = .error e) ↔
      (w.toNat / 4096 = 0x0 ∧ w.toNat % 4096 ≠ 0x0E0 ∧ w.toNat % 4096 ≠ 0x0EE) ∨
      (w.toNat / 4096 = 0x8 ∧ w.toNat % 16 ∈ [0x8, 0x9, 0xA, 0xB, 0xC, 0xD, 0xF]) ∨
      (w.toNat / 4096 = 0xE ∧ w.toNat % 256 ∉ [0x9E, 0xA1]) ∨
      (w.toNat / 4096 = 0xF ∧ w.toNat % 256 ∉ [0x07, 0x0A, 0x15, 0x18, 0x1E, 0x29, 0x33, 0x55, 0x65])

/-- 30_encoding.md R125, 95_test_vectors.md L2.1: a word of each family, written out from the opcode map. -/
def Obligations.WordsFromTheOpcodeMapDecode : Prop :=
  decode 0xD125 = .ok (.drw 1 2 5) ∧ decode 0x2ABC = .ok (.call 0xABC) ∧ decode 0x5123 = .ok (.seReg 1 2 3) ∧
  decode 0x8014 = .ok (.addReg 0 1) ∧ decode 0xF265 = .ok (.ldVxMem 2) ∧ decode 0xE1A1 = .ok (.sknp 1) ∧
  decode 0x0123 = .error .group0 ∧ decode 0x8008 = .error .group8

/-! ### The execution cycle -/

/-- 40_execution_cycle.md R166 to R171: where the two bytes at the program counter decode to `i`, the step is `exec i`
on that state and then, on the next state it answers, the end of the step for the instruction at that address
(`retire`, stated by `TheEndOfAStepClampsTheProgramCounter`). -/
def Obligations.StepRunsTheDecodedInstruction : Prop :=
  ∀ (s : State) (i : Instr), s.runs = true → 0x200 ≤ s.pc.toNat → s.pc.toNat + 1 < 4096 →
    decodeBytes [s.mem.read s.pc.toNat, s.mem.read (s.pc.toNat + 1)] = .ok (i, []) →
    step s = mapNext (retire s.pc) (exec i s)

/-- 40_execution_cycle.md R171, R172 (the clamp is the spec's decision D17): after the instruction at `A` a program
counter at or past the boundary is set 2 below it, with the warning; one below it, and any of a faulted instruction,
stays. The key snapshot spent and the closed `load` are the model's own fields (log entries 5 and 8). -/
def Obligations.TheEndOfAStepClampsTheProgramCounter : Prop :=
  ∀ (A : Word) (t : State),
    (t.halt = none → t.params.stackRegionOffset ≤ t.pc.toNat →
      retire A t = { t with
        pc := BitVec.ofNat 16 (t.params.stackRegionOffset - 2)
        wlog := t.wlog ++ [{ code := .pcBoundary, pc := A }]
        inputs := { t.inputs with keys := t.inputs.keys.tail, keyTick := t.inputs.keyTick + 1 }
        loadOpen := false }) ∧
    (t.halt ≠ none ∨ t.pc.toNat < t.params.stackRegionOffset →
      retire A t = { t with
        inputs := { t.inputs with keys := t.inputs.keys.tail, keyTick := t.inputs.keyTick + 1 }
        loadOpen := false })

/-- 40_execution_cycle.md R161: in the halted state `step()` changes nothing; and of all the driver's operations only
reset leaves it. -/
def Obligations.TheHaltedStateIsLeftOnlyByReset : Prop :=
  (∀ (s : State) (r : FaultRecord), s.halt = some r → s.schedule = [] → step s = .next s) ∧
  (∀ (s t : State) (r : FaultRecord) (op : DriverOp) (rest : List DriverOp), s.halt = some r →
    s.schedule = op :: rest → op ≠ .reset → step s = .next t → t.halt = some r)

/-- 40_execution_cycle.md R162, R164: with a key-wait pending and no key held the step changes nothing but the model's
own record that the key snapshot is spent and `load` closed (log entries 5 and 8). -/
def Obligations.KeyWaitWithoutAKeyHoldsTheStep : Prop :=
  ∀ (s : State) (r : Reg), s.halt = none → s.schedule = [] → s.kwt = some r → (∀ k : Key, s.held k = false) →
    step s = .next { s with
      inputs := { s.inputs with keys := s.inputs.keys.tail, keyTick := s.inputs.keyTick + 1 }
      loadOpen := false }

/-- 40_execution_cycle.md R162, R163 (the scan order, level and fall-through are the spec's decisions D6, D40, D7): the
least held key is stored in the target and the wait cleared, and the same step goes on with the instruction at
`pc`, under the same key snapshot. -/
def Obligations.KeyWaitStoresTheLeastHeldKeyAndGoesOn : Prop :=
  ∀ (s : State) (r : Reg) (k : Key), s.halt = none → s.schedule = [] → s.kwt = some r → s.held k = true →
    (∀ j : Key, j < k → s.held j = false) →
    step s = step { s with V := s.V.set r.val (BitVec.ofNat 8 k.val), kwt := none }

/-- 40_execution_cycle.md R165, R166, 60_exceptions.md R405 (the spec's decisions D12, D13, D36): a fetch below 0x200
and a fetch that reaches past memory fault, with no bytes in the record. The key snapshot spent and `load` closed by `endStep`
are the model's own (log entries 5 and 8). -/
def Obligations.FetchFaultsOutsideTheProgramRange : Prop :=
  ∀ s : State, s.runs = true →
    (s.pc.toNat < 0x200 →
      step s = .next (State.endStep { s with halt := some ⟨.reservedFetch, s.pc, none, none⟩ })) ∧
    (4096 ≤ s.pc.toNat + 1 →
      step s = .next (State.endStep { s with halt := some ⟨.memBounds, s.pc, none, some (max s.pc.toNat 4096)⟩ }))

/-- 40_execution_cycle.md R168: a fetched word that is no instruction faults with the program counter, not advanced,
and both raw bytes in the record. The key snapshot spent and `load` closed by `endStep` are the model's own (log entries
5 and 8). -/
def Obligations.AnIllegalWordFaultsWithItsBytes : Prop :=
  ∀ (s : State) (b0 b1 : Byte) (e : Illegal), s.runs = true → 0x200 ≤ s.pc.toNat → s.pc.toNat + 1 < 4096 →
    s.mem.read s.pc.toNat = b0 → s.mem.read (s.pc.toNat + 1) = b1 → decode (b0 ++ b1) = .error e →
    step s = .next (State.endStep { s with halt := some ⟨.unimplemented, s.pc, some (b0, b1), none⟩ })

/-- 40_execution_cycle.md R162, R163, R172, 60_exceptions.md R404 (precise faults are the spec's decision D20; that it is
the least held key and that the resolving step goes on to the fault are its decisions D6 and D7, log entry 13): a step
that faults keeps only the fault record and, where a key-wait resolved in it, the key stored and the wait cleared; the
record names the program counter, which stays. The key snapshot spent and `load` closed by `endStep` are the model's
own (log entries 5 and 8). -/
def Obligations.FaultsArePrecise : Prop :=
  ∀ (s t : State) (r : FaultRecord), s.halt = none → s.schedule = [] → step s = .next t → t.halt = some r →
    r.pc = s.pc ∧
    ∃ u : State, t = State.endStep { u with halt := some r } ∧
      ((s.kwt = none ∧ u = s) ∨
       (∃ (q : Reg) (k : Key), s.kwt = some q ∧ s.held k = true ∧ (∀ j : Key, j < k → s.held j = false) ∧
          u = { s with V := s.V.set q.val (BitVec.ofNat 8 k.val), kwt := none }))

/-- 60_exceptions.md R403 (the spec's decisions D12, D14): the execute phase faults exactly in these cases. -/
def Obligations.TheExecutePhaseFaultsExactlyHere : Prop :=
  ∀ (i : Instr) (s t : State), s.halt = none → exec i s = .next t →
    (t.halt ≠ none ↔
      (∃ x y n, i = .drw x y n ∧ ∃ k < n.toNat, 4096 ≤ s.I.toNat + k) ∨
      (∃ x, i = .ldB x ∧ 4096 ≤ s.I.toNat + 2) ∨
      (∃ x : Reg, (i = .ldMemVx x ∨ i = .ldVxMem x) ∧ 4096 ≤ s.I.toNat + x.val) ∨
      (∃ x : Reg, (i = .skp x ∨ i = .sknp x) ∧ 15 < (s.getV x).toNat))

/-- 60_exceptions.md R414 (the spec's decision D32): there is no mode in which an instruction is not available: the
meaning of each answers a next state from every state. That the six forms that can fault do so too when they fault is
the model's deduction that a fault is a next state (log entry 10, from 60_exceptions.md R404 to R406). -/
def Obligations.EveryInstructionAnswersANextState : Prop :=
  ∀ (i : Instr) (s : State), ∃ t, exec i s = .next t

/-- Model's choice, log entry 8 (60_exceptions.md R447): a step answers no next state exactly when the driver calls
`load` out of turn, and then it is the refusal by that name. -/
def Obligations.OnlyALoadOutOfTurnIsRefused : Prop :=
  ∀ s : State,
    ((¬ ∃ t, step s = .next t) ↔ s.loadOpen = false ∧ ∃ bytes rest, s.schedule = .load bytes :: rest) ∧
    (step s = .refused .loadOutOfTurn ↔ s.loadOpen = false ∧ ∃ bytes rest, s.schedule = .load bytes :: rest)

/-- 60_exceptions.md R409, R410, 10_state.md R48 (the spec's decision D37): the warning log is append-only under every
operation but reset. -/
def Obligations.TheWarningLogOnlyGrows : Prop :=
  ∀ s t : State, s.schedule.head? ≠ some .reset → step s = .next t → s.wlog <+: t.wlog

/-! ### The invariant -/

/-- 10_state.md R39 (`pc` "must stay below the stack-region boundary"), with the model's canonical form of memory (log
entry 12) and the range R14 requires of the open parameter: every operation keeps the invariant, from every state
that has it. -/
def Obligations.EveryStepKeepsTheInvariant : Prop :=
  ∀ s t : State, s.Inv → step s = .next t → t.Inv

/-- The state after reset has the invariant. -/
def Obligations.TheResetStateHasTheInvariant : Prop := State.reset.Inv

/-! ### Who writes what -/

/-- 10_state.md R33, R37, R40 to R47, R51, 20_memory.md R89, 41_display.md R208, 60_exceptions.md R402, R403, R424 (the
faulting forms are the spec's decisions D12, D14): the instructions that write each piece of state. A register changes
only in the instructions R33 lists it for; the program counter is left other than 2 on only by a fault, which changes
`halt` alone, and by the control transfers and skips; `halt` changes only in the six forms that can fault. No
instruction writes the Timer Clock's remainder. The parameter, the environment's answers, the schedule, the TONE_STOP
count and the load fields are the model's own (log entries 1, 5 to 9). -/
def Obligations.EachPieceOfStateHasItsWriters : Prop :=
  ∀ (i : Instr) (s t : State), exec i s = .next t →
    (∀ r : Reg, r ∉ writtenRegs i → t.getV r = s.getV r) ∧
    (t.pc ≠ s.pc + 2 → t = { s with halt := t.halt } ∨ i = .ret ∨
      (∃ nnn, i = .jp nnn ∨ i = .call nnn ∨ i = .jpV0 nnn) ∨ (∃ x kk, i = .seImm x kk ∨ i = .sneImm x kk) ∨
      (∃ x y n, i = .seReg x y n ∨ i = .sneReg x y n) ∨ (∃ x, i = .skp x ∨ i = .sknp x)) ∧
    (t.halt ≠ s.halt → t = { s with halt := t.halt } ∧
      ((∃ x y n, i = .drw x y n) ∨
        ∃ x, i = .ldB x ∨ i = .ldMemVx x ∨ i = .ldVxMem x ∨ i = .skp x ∨ i = .sknp x)) ∧
    (t.mem ≠ s.mem → ∃ x, i = .ldB x ∨ i = .ldMemVx x) ∧
    (t.I ≠ s.I → ∃ nnn x, i = .ldI nnn ∨ i = .addI x ∨ i = .ldF x) ∧
    (t.stack ≠ s.stack → ∃ nnn, i = .call nnn) ∧
    (t.sp ≠ s.sp → i = .ret ∨ ∃ nnn, i = .call nnn) ∧
    (t.DT ≠ s.DT → ∃ x, i = .ldDtVx x) ∧
    (t.ST ≠ s.ST ∨ t.toneStops ≠ s.toneStops → ∃ x, i = .ldStVx x) ∧
    (t.disp ≠ s.disp → i = .cls ∨ ∃ x y n, i = .drw x y n) ∧
    (t.kwt ≠ s.kwt → ∃ x, i = .ldVxK x) ∧
    (t.wlog ≠ s.wlog → i = .ret ∨ ∃ nnn, i = .call nnn) ∧
    (t.inputs ≠ s.inputs → ∃ x kk, i = .rnd x kk) ∧
    t.tacc = s.tacc ∧ t.params = s.params ∧ t.schedule = s.schedule ∧ t.loadOk = s.loadOk ∧
    t.loadOpen = s.loadOpen

/-- 10_state.md R34: VF changes only by the six instructions that write it as a flag, and as an ordinary destination
by the instructions whose x is F. -/
def Obligations.VFHasItsWriters : Prop :=
  ∀ (i : Instr) (s t : State), exec i s = .next t → t.getV 15 ≠ s.getV 15 →
    (∃ x y, i = .addReg x y ∨ i = .sub x y ∨ i = .shr x y ∨ i = .subn x y ∨ i = .shl x y) ∨
    (∃ x y n, i = .drw x y n) ∨
    (∃ kk, i = .ldImm 15 kk ∨ i = .addImm 15 kk ∨ i = .rnd 15 kk) ∨
    (∃ y, i = .ldReg 15 y ∨ i = .orReg 15 y ∨ i = .andReg 15 y ∨ i = .xorReg 15 y) ∨
    i = .ldVxDt 15 ∨ i = .ldVxMem 15

/-- 45_timers_keys.md R376, 60_exceptions.md R442: only the key skips and the random byte depend on the environment's
answers: every other instruction does the same under all of them. -/
def Obligations.OtherInstructionsDoNotSeeTheEnvironment : Prop :=
  ∀ (i : Instr) (s : State) (e : Inputs),
    (∀ x kk, i ≠ .rnd x kk) → (∀ x, i ≠ .skp x) → (∀ x, i ≠ .sknp x) →
    exec i { s with inputs := e } = mapNext (fun t => { t with inputs := e }) (exec i s)

/-! ### Registers and arithmetic (43_alu.md) -/

/-- 43_alu.md R270. -/
def Obligations.LoadImmediateWritesTheByte : Prop :=
  ∀ (x : Reg) (kk : Byte) (s : State),
    decode (wordXKK 0x6 x kk) = .ok (.ldImm x kk) ∧
    ∃ t, exec (.ldImm x kk) s = .next t ∧ t.getV x = kk ∧ OnlyRegsChange s t [x]

/-- 43_alu.md R271: modulo 256, and no flag: VF changes only where x is F. -/
def Obligations.AddImmediateWrapsWithoutAFlag : Prop :=
  ∀ (x : Reg) (kk : Byte) (s : State),
    decode (wordXKK 0x7 x kk) = .ok (.addImm x kk) ∧
    ∃ t, exec (.addImm x kk) s = .next t ∧ (t.getV x).toNat = ((s.getV x).toNat + kk.toNat) % 256 ∧
      OnlyRegsChange s t [x]

/-- 43_alu.md R272. -/
def Obligations.LoadRegisterCopies : Prop :=
  ∀ (x y : Reg) (s : State),
    decode (wordXYN 0x8 x y 0x0) = .ok (.ldReg x y) ∧
    ∃ t, exec (.ldReg x y) s = .next t ∧ t.getV x = s.getV y ∧ OnlyRegsChange s t [x]

/-- 43_alu.md R273 to R275 (VF unchanged is the spec's decision D9): bit by bit. -/
def Obligations.BitwiseOperationsLeaveVFAlone : Prop :=
  ∀ (x y : Reg) (s : State),
    (∃ t, exec (.orReg x y) s = .next t ∧ OnlyRegsChange s t [x] ∧
      ∀ k < 8, (t.getV x).getLsbD k = ((s.getV x).getLsbD k || (s.getV y).getLsbD k)) ∧
    (∃ t, exec (.andReg x y) s = .next t ∧ OnlyRegsChange s t [x] ∧
      ∀ k < 8, (t.getV x).getLsbD k = ((s.getV x).getLsbD k && (s.getV y).getLsbD k)) ∧
    (∃ t, exec (.xorReg x y) s = .next t ∧ OnlyRegsChange s t [x] ∧
      ∀ k < 8, (t.getV x).getLsbD k = ((s.getV x).getLsbD k ^^ (s.getV y).getLsbD k))

/-- 43_alu.md R276: the sum modulo 256 and then the carry in VF, which is the last write where x is F. -/
def Obligations.AddRegisterSetsTheCarry : Prop :=
  ∀ (x y : Reg) (s : State),
    decode (wordXYN 0x8 x y 0x4) = .ok (.addReg x y) ∧
    ∃ t, exec (.addReg x y) s = .next t ∧
      (x ≠ 15 → (t.getV x).toNat = ((s.getV x).toNat + (s.getV y).toNat) % 256) ∧
      t.getV 15 = (if (s.getV x).toNat + (s.getV y).toNat > 255 then 1 else 0) ∧
      OnlyRegsChange s t [x, 15]

/-- 43_alu.md R277: V[x] - V[y] modulo 256, then VF 1 exactly when there is no borrow. -/
def Obligations.SubtractSetsNoBorrow : Prop :=
  ∀ (x y : Reg) (s : State),
    decode (wordXYN 0x8 x y 0x5) = .ok (.sub x y) ∧
    ∃ t, exec (.sub x y) s = .next t ∧
      (x ≠ 15 → (t.getV x).toNat = ((s.getV x).toNat + 256 - (s.getV y).toNat) % 256) ∧
      t.getV 15 = (if (s.getV x).toNat ≥ (s.getV y).toNat then 1 else 0) ∧
      OnlyRegsChange s t [x, 15]

/-- 43_alu.md R279: V[y] - V[x] modulo 256, then VF 1 exactly when there is no borrow. -/
def Obligations.SubtractReversedSetsNoBorrow : Prop :=
  ∀ (x y : Reg) (s : State),
    decode (wordXYN 0x8 x y 0x7) = .ok (.subn x y) ∧
    ∃ t, exec (.subn x y) s = .next t ∧
      (x ≠ 15 → (t.getV x).toNat = ((s.getV y).toNat + 256 - (s.getV x).toNat) % 256) ∧
      t.getV 15 = (if (s.getV y).toNat ≥ (s.getV x).toNat then 1 else 0) ∧
      OnlyRegsChange s t [x, 15]

/-- 43_alu.md R278 (for x = F the order of the two writes is the spec's decision D8): V[x] halved and the bit shifted
out in VF, whatever y is; for x = F, VF ends 0. -/
def Obligations.ShiftRightHalvesAndIgnoresY : Prop :=
  ∀ (x y : Reg) (s : State), ∃ t, exec (.shr x y) s = .next t ∧ OnlyRegsChange s t [x, 15] ∧
    (x ≠ 15 → (t.getV x).toNat = (s.getV x).toNat / 2 ∧ (t.getV 15).toNat = (s.getV x).toNat % 2) ∧
    (x = 15 → t.getV 15 = 0)

/-- 43_alu.md R280 (for x = F the order of the two writes is the spec's decision D8): V[x] doubled modulo 256 and the
bit shifted out in VF, whatever y is; for x = F, VF ends twice that bit. -/
def Obligations.ShiftLeftDoublesAndIgnoresY : Prop :=
  ∀ (x y : Reg) (s : State), ∃ t, exec (.shl x y) s = .next t ∧ OnlyRegsChange s t [x, 15] ∧
    (x ≠ 15 → (t.getV x).toNat = 2 * (s.getV x).toNat % 256 ∧ (t.getV 15).toNat = (s.getV x).toNat / 128) ∧
    (x = 15 → (t.getV 15).toNat = 2 * ((s.getV 15).toNat / 128))

/-- 43_alu.md R281 (the free draw is the spec's decision D24; how it is held is log entry 6): V[x] receives the drawn
byte masked with kk, the draw is spent, from the list and in the count, and nothing else changes; and every byte is a
possible draw. -/
def Obligations.RandomByteIsMaskedAndFree : Prop :=
  (∀ (x : Reg) (kk : Byte) (s : State), ∃ t, exec (.rnd x kk) s = .next t ∧
    (∀ k < 8, (t.getV x).getLsbD k = (s.randomByte.getLsbD k && kk.getLsbD k)) ∧
    OnlyRegsChange { s with inputs := t.inputs } t [x] ∧
    t.inputs = { s.inputs with rands := s.inputs.rands.tail, randTick := s.inputs.randTick + 1 }) ∧
  (∀ (b : Byte) (s : State), ∃ e : Inputs, State.randomByte { s with inputs := e } = b)

/-! ### Control flow (42_control_flow.md) -/

/-- 42_control_flow.md R231, R237: the jump to nnn, and the jump to nnn + V[0], which never wraps. -/
def Obligations.JumpsReplaceTheProgramCounter : Prop :=
  ∀ (nnn : Addr) (s : State),
    (∃ t, exec (.jp nnn) s = .next t ∧ t.pc.toNat = nnn.toNat ∧ t = { s with pc := t.pc }) ∧
    (∃ t, exec (.jpV0 nnn) s = .next t ∧ t.pc.toNat = nnn.toNat + (s.getV 0).toNat ∧ t = { s with pc := t.pc })

/-- 42_control_flow.md R233, R234: the comparison with an immediate skips exactly one instruction. -/
def Obligations.ImmediateSkips : Prop :=
  ∀ (x : Reg) (kk : Byte) (s : State),
    exec (.seImm x kk) s = .next { s with pc := if (s.getV x).toNat = kk.toNat then s.pc + 4 else s.pc + 2 } ∧
    exec (.sneImm x kk) s = .next { s with pc := if (s.getV x).toNat = kk.toNat then s.pc + 2 else s.pc + 4 }

/-- 42_control_flow.md R235, R236 (every n is the spec's decision D29): the comparison of two registers skips exactly
one instruction, whatever n is. -/
def Obligations.RegisterSkipsIgnoreN : Prop :=
  ∀ (x y : Reg) (n : Nibble) (s : State),
    exec (.seReg x y n) s =
      .next { s with pc := if (s.getV x).toNat = (s.getV y).toNat then s.pc + 4 else s.pc + 2 } ∧
    exec (.sneReg x y n) s =
      .next { s with pc := if (s.getV x).toNat = (s.getV y).toNat then s.pc + 2 else s.pc + 4 }

/-- 42_control_flow.md R232 (the full stack is the spec's decision D15): a call pushes the address after it and jumps;
with all 16 slots in use it pushes nothing, logs STACK_OVERFLOW for its own address, and jumps. -/
def Obligations.CallPushesTheReturnAddress : Prop :=
  ∀ (nnn : Addr) (s : State),
    (∀ h : s.sp.val < 16, ∃ t, exec (.call nnn) s = .next t ∧ t.pc.toNat = nnn.toNat ∧
      t.sp.val = s.sp.val + 1 ∧ t.stack[s.sp.val] = s.pc + 2 ∧
      (∀ j : Fin 16, j.val ≠ s.sp.val → t.stack[j] = s.stack[j]) ∧
      t = { s with pc := t.pc, sp := t.sp, stack := t.stack }) ∧
    (s.sp.val = 16 → ∃ t, exec (.call nnn) s = .next t ∧ t.pc.toNat = nnn.toNat ∧
      t = { s with pc := t.pc, wlog := s.wlog ++ [{ code := .stackOverflow, pc := s.pc }] })

/-- 42_control_flow.md R230, 10_state.md R41 (the empty stack is the spec's decision D16): a return goes to the top
slot, which keeps its value; with no slot in use it logs STACK_UNDERFLOW for its own address and goes on behind
itself. -/
def Obligations.ReturnPopsTheTopSlot : Prop :=
  ∀ s : State,
    (∀ j : Fin 16, s.sp.val = j.val + 1 → ∃ t, exec .ret s = .next t ∧ t.pc = s.stack[j] ∧ t.sp.val = j.val ∧
      t = { s with pc := t.pc, sp := t.sp }) ∧
    (s.sp.val = 0 → exec .ret s =
      .next { s with pc := s.pc + 2, wlog := s.wlog ++ [{ code := .stackUnderflow, pc := s.pc }] })

/-- 42_control_flow.md R238: a return that finds the stack as a call that pushed left it goes to the instruction after
the call. -/
def Obligations.CallThenReturnComesBack : Prop :=
  ∀ (nnn : Addr) (s t u : State), s.sp.val < 16 → exec (.call nnn) s = .next t →
    u.sp = t.sp → u.stack = t.stack →
    ∃ v, exec .ret u = .next v ∧ v.pc = s.pc + 2 ∧ v.sp = s.sp

/-! ### Address register and memory (44_index_memory.md) -/

/-- 44_index_memory.md R330. -/
def Obligations.LoadAddressRegister : Prop :=
  ∀ (nnn : Addr) (s : State),
    decode (wordNNN 0xA nnn) = .ok (.ldI nnn) ∧
    ∃ t, exec (.ldI nnn) s = .next t ∧ t.I.toNat = nnn.toNat ∧ t = { s with I := t.I, pc := s.pc + 2 }

/-- 44_index_memory.md R331, R332 (the wrap and VF are the spec's decision D11, the unmasked value D39): I plus V[x]
modulo 65536, and five times V[x]. -/
def Obligations.AddressRegisterArithmetic : Prop :=
  ∀ (x : Reg) (s : State),
    (∃ t, exec (.addI x) s = .next t ∧ t.I.toNat = (s.I.toNat + (s.getV x).toNat) % 65536 ∧
      t = { s with I := t.I, pc := s.pc + 2 }) ∧
    (∃ t, exec (.ldF x) s = .next t ∧ t.I.toNat = 5 * (s.getV x).toNat ∧
      t = { s with I := t.I, pc := s.pc + 2 })

/-- 44_index_memory.md R333: the three bytes at I are the decimal digits of V[x], and no other byte changes. -/
def Obligations.StoreDecimalWritesThreeDigits : Prop :=
  ∀ (x : Reg) (s : State), s.baseAddr + 2 < 4096 →
    ∃ t, exec (.ldB x) s = .next t ∧ t = { s with mem := t.mem, pc := s.pc + 2 } ∧
      (∀ a, a < s.baseAddr ∨ s.baseAddr + 2 < a → t.mem.read a = s.mem.read a) ∧
      (s.mem.wf = true →
        (t.mem.read s.baseAddr).toNat * 100 + (t.mem.read (s.baseAddr + 1)).toNat * 10
            + (t.mem.read (s.baseAddr + 2)).toNat = (s.getV x).toNat ∧
        (t.mem.read (s.baseAddr + 1)).toNat ≤ 9 ∧ (t.mem.read (s.baseAddr + 2)).toNat ≤ 9)

/-- 44_index_memory.md R334 (I unchanged is the spec's decision D10): V0 to Vx at I and up, and no other byte
changes. -/
def Obligations.StoreRegistersWritesTheRange : Prop :=
  ∀ (x : Reg) (s : State), s.baseAddr + x.val < 4096 →
    ∃ t, exec (.ldMemVx x) s = .next t ∧ t = { s with mem := t.mem, pc := s.pc + 2 } ∧
      (∀ a, a < s.baseAddr ∨ s.baseAddr + x.val < a → t.mem.read a = s.mem.read a) ∧
      (s.mem.wf = true → ∀ r : Reg, r ≤ x → t.mem.read (s.baseAddr + r.val) = s.getV r)

/-- 44_index_memory.md R335 (I unchanged is the spec's decision D10): V0 to Vx from I and up, the registers above Vx
and everything else as before. -/
def Obligations.LoadRegistersReadsTheRange : Prop :=
  ∀ (x : Reg) (s : State), s.baseAddr + x.val < 4096 →
    ∃ t, exec (.ldVxMem x) s = .next t ∧ t = { s with V := t.V, pc := s.pc + 2 } ∧
      ∀ r : Reg, t.getV r = if r ≤ x then s.mem.read (s.baseAddr + r.val) else s.getV r

/-- 20_memory.md R86, R87, 60_exceptions.md R405 (the spec's decisions D12, D36; the raw bytes are those of the encoded
instruction, log entry 10): an access through I that reaches past memory changes nothing but the fault record, which
names the first address past it. -/
def Obligations.AnAccessPastMemoryFaults : Prop :=
  ∀ (i : Instr) (count : Nat) (s : State),
    ((∃ x y n, i = .drw x y n ∧ count = n.toNat) ∨ (∃ x, i = .ldB x ∧ count = 3) ∨
      (∃ x : Reg, (i = .ldMemVx x ∨ i = .ldVxMem x) ∧ count = x.val + 1)) →
    0 < count → 4096 < s.baseAddr + count →
    exec i s = .next { s with
      halt := some { code := .memBounds, pc := s.pc, bytes := some (hiByte (encode i), loByte (encode i))
                     addr := some (max s.baseAddr 4096) } }

/-! ### Display (41_display.md) -/

/-- 41_display.md R200. -/
def Obligations.ClearZeroesEveryCell : Prop :=
  decode 0x00E0 = .ok .cls ∧
  ∀ s : State, ∃ t, exec .cls s = .next t ∧ (∀ r c, t.disp.cell r c = false) ∧
    t = { s with disp := t.disp, pc := s.pc + 2 }

/-- 41_display.md R201 to R206 (the spec's decisions D4, D30, D31): with its rows in memory, a draw inverts exactly the
cells the sprite covers, wrapping per pixel, and VF is 1 exactly when a covered cell was set; nothing else changes,
whichever registers x and y are and for every n, 0 among them. -/
def Obligations.DrawInvertsTheCoveredCells : Prop :=
  ∀ (x y : Reg) (n : Nibble) (s : State), (∀ k < n.toNat, s.baseAddr + k < 4096) →
    ∃ t, exec (.drw x y n) s = .next t ∧
      (∀ (r : Fin 32) (c : Fin 64), t.disp.cell r c ≠ s.disp.cell r c ↔ s.spriteCovers x y n r c) ∧
      (t.getV 15 = 1 ∨ t.getV 15 = 0) ∧
      (t.getV 15 = 1 ↔ ∃ (r : Fin 32) (c : Fin 64), s.spriteCovers x y n r c ∧ s.disp.cell r c = true) ∧
      (∀ r : Reg, r ≠ 15 → t.getV r = s.getV r) ∧
      t = { s with disp := t.disp, V := t.V, pc := s.pc + 2 }

/-- 41_display.md R201 to R205 (a row of one byte, 8 pixels wide, is the spec's decision D4; the size of 64 by 32, at which
no two pixels of one sprite meet, is log entry 4): drawing the same sprite twice at the same place gives the display
back; on a display that was clear the second draw collides exactly when the sprite has a set bit. -/
def Obligations.DrawingTwiceRestoresTheDisplay : Prop :=
  ∀ (x y : Reg) (n : Nibble) (s t : State), x ≠ 15 → y ≠ 15 → (∀ k < n.toNat, s.baseAddr + k < 4096) →
    exec (.drw x y n) s = .next t →
    ∃ u, exec (.drw x y n) t = .next u ∧ u.disp = s.disp ∧
      ((∀ r c, s.disp.cell r c = false) →
        (u.getV 15 = 1 ↔ ∃ k < n.toNat, s.mem.read (s.baseAddr + k) ≠ 0))

/-- 10_state.md R52 (the spec's decision D5): the flat display is row-major. -/
def Obligations.TheFlatDisplayIsRowMajor : Prop :=
  ∀ (s : State) (r : Fin 32) (c : Fin 64) (h : r.val * 64 + c.val < 2048),
    s.flatDisplay[r.val * 64 + c.val] = s.disp.cell r c

/-! ### Keys and timers (45_timers_keys.md) -/

/-- 45_timers_keys.md R370, R371: with a key number in V[x], SKP skips when that key is held and SKNP when it is not. -/
def Obligations.KeySkipsFollowTheKey : Prop :=
  ∀ (x : Reg) (s : State) (h : (s.getV x).toNat < 16),
    exec (.skp x) s = .next { s with pc := if s.held ⟨(s.getV x).toNat, h⟩ then s.pc + 4 else s.pc + 2 } ∧
    exec (.sknp x) s = .next { s with pc := if s.held ⟨(s.getV x).toNat, h⟩ then s.pc + 2 else s.pc + 4 }

/-- 45_timers_keys.md R370, R371, 60_exceptions.md R405 (the spec's decisions D14, D36; the raw bytes are those of the
encoded instruction, log entry 10): a value above 15 faults with that value in the record and changes nothing else. -/
def Obligations.AKeyAboveFifteenFaults : Prop :=
  ∀ (i : Instr) (x : Reg) (s : State), i = .skp x ∨ i = .sknp x → 15 < (s.getV x).toNat →
    exec i s = .next { s with
      halt := some { code := .keyRange, pc := s.pc, bytes := some (hiByte (encode i), loByte (encode i))
                     addr := some (s.getV x).toNat } }

/-- 45_timers_keys.md R372. -/
def Obligations.ReadDelayTimer : Prop :=
  ∀ (x : Reg) (s : State),
    decode (wordXKK 0xF x 0x07) = .ok (.ldVxDt x) ∧
    ∃ t, exec (.ldVxDt x) s = .next t ∧ t.getV x = s.DT ∧ OnlyRegsChange s t [x]

/-- 45_timers_keys.md R373, R374, R375 (the remainder untouched and the tone signals are the spec's decisions D22, D23; the count
of TONE_STOP events is the model's, log entry 9):
the writes of the delay timer, the sound timer, with its one TONE_STOP when it goes from non-zero to zero and the
tone level after it, and the key-wait target. -/
def Obligations.TimerWritesAndTheKeyWait : Prop :=
  ∀ (x : Reg) (s : State),
    exec (.ldDtVx x) s = .next { s with DT := s.getV x, pc := s.pc + 2 } ∧
    (∃ t, exec (.ldStVx x) s = .next t ∧ t = { s with ST := s.getV x, pc := s.pc + 2, toneStops := t.toneStops } ∧
      t.toneStops = s.toneStops + (if s.ST ≠ 0 ∧ s.getV x = 0 then 1 else 0) ∧
      (t.tone = true ↔ s.getV x ≠ 0)) ∧
    exec (.ldVxK x) s = .next { s with kwt := some x, pc := s.pc + 2 }

/-! ### The Timer Clock (60_exceptions.md section 5) -/

/-- 60_exceptions.md R420, R421, R422 (the elapsed time in milliseconds is the spec's decision D22, the count of TONE_STOP
events the model's, log entry 9): one tick takes one from each non-zero timer, leaves a timer at 0, and emits TONE_STOP
exactly when it takes ST from 1 to 0; 60 of them are what a second brings. -/
def Obligations.ATickDecrementsEachTimer : Prop :=
  ∀ s : State, s.tick = { s with
    DT := BitVec.ofNat 8 (s.DT.toNat - 1)
    ST := BitVec.ofNat 8 (s.ST.toNat - 1)
    toneStops := s.toneStops + (if s.ST.toNat = 1 then 1 else 0) } ∧
    tickTimers 1000 s = State.ticks 60 s

/-- 60_exceptions.md R421 (the spec's decision D22): no tick is lost: elapsed time in two parts does what the sum
does. -/
def Obligations.ElapsedTimeMayBeSplit : Prop :=
  ∀ (a b : Nat) (s : State), tickTimers b (tickTimers a s) = tickTimers (a + b) s

/-- 60_exceptions.md R421, R406, R424, 20_memory.md R98 (the spec's decisions D21, D22; the count of
TONE_STOP events is the model's, log entry 9): what `tick_timers` does in every
state, halted or waiting for a key too: the timers go down by the whole ticks, the remainder is kept, TONE_STOP is
emitted when ST reaches 0 on the way, and nothing else changes. -/
def Obligations.TickTimersTouchesOnlyTheTimers : Prop :=
  ∀ (s : State) (ms : Nat) (rest : List DriverOp), s.schedule = .tick ms :: rest →
    ∃ t, step s = .next t ∧
      t.tacc.val = (s.tacc.val + 60 * ms) % 1000 ∧
      t.DT.toNat = s.DT.toNat - (s.tacc.val + 60 * ms) / 1000 ∧
      t.ST.toNat = s.ST.toNat - (s.tacc.val + 60 * ms) / 1000 ∧
      t.toneStops = s.toneStops +
        (if 0 < s.ST.toNat ∧ s.ST.toNat ≤ (s.tacc.val + 60 * ms) / 1000 then 1 else 0) ∧
      t = { s with schedule := rest, tacc := t.tacc, DT := t.DT, ST := t.ST, toneStops := t.toneStops }

/-! ### Reset and load (70_reset_and_hazards.md) -/

/-- 70_reset_and_hazards.md R470, 10_state.md R55 (`halt`, `wlog` are the spec's decisions D20, D37; the font bytes,
the whole table of R49, D3, log entry 3): the state after reset. -/
def Obligations.WhatResetLeaves : Prop :=
  (∀ r : Reg, State.reset.getV r = 0) ∧ State.reset.I = 0 ∧ State.reset.pc = 0x200 ∧
  (∀ j : Fin 16, State.reset.stack[j] = 0) ∧ State.reset.sp.val = 0 ∧ State.reset.DT = 0 ∧ State.reset.ST = 0 ∧
  (∀ r c, State.reset.disp.cell r c = false) ∧ State.reset.kwt = none ∧ State.reset.halt = none ∧
  State.reset.wlog = [] ∧ State.reset.tacc.val = 0 ∧
  (∀ a, 0x50 ≤ a → State.reset.mem.read a = 0) ∧
  State.reset.mem.readBytes 0x000 40 =
    [0xF0, 0x90, 0x90, 0x90, 0xF0] ++ [0x20, 0x60, 0x20, 0x20, 0x70] ++
    [0xF0, 0x10, 0xF0, 0x80, 0xF0] ++ [0xF0, 0x10, 0xF0, 0x10, 0xF0] ++
    [0x90, 0x90, 0xF0, 0x10, 0x10] ++ [0xF0, 0x80, 0xF0, 0x10, 0xF0] ++
    [0xF0, 0x80, 0xF0, 0x90, 0xF0] ++ [0xF0, 0x10, 0x20, 0x40, 0x40] ∧
  State.reset.mem.readBytes 0x028 40 =
    [0xF0, 0x90, 0xF0, 0x90, 0xF0] ++ [0xF0, 0x90, 0xF0, 0x10, 0xF0] ++
    [0xF0, 0x90, 0xF0, 0x90, 0x90] ++ [0xE0, 0x90, 0xE0, 0x90, 0xE0] ++
    [0xF0, 0x80, 0x80, 0x80, 0xF0] ++ [0xE0, 0x90, 0x90, 0x90, 0xE0] ++
    [0xF0, 0x80, 0xF0, 0x80, 0xF0] ++ [0xF0, 0x80, 0xF0, 0x80, 0x80]

/-- 70_reset_and_hazards.md R470, 60_exceptions.md R407: the driver's reset gives that state from every state, the
halted ones too; the parameter, the environment's answers and the schedule are not the block's (log entries 1, 5, 6,
7). -/
def Obligations.ResetFromEveryState : Prop :=
  ∀ (s : State) (rest : List DriverOp), s.schedule = .reset :: rest →
    step s = .next { State.reset with params := s.params, inputs := s.inputs, schedule := rest }

/-- 70_reset_and_hazards.md R475, R476 (when a load may come and what a rejected one leaves are the spec's decision D26):
an accepted program is copied byte for byte to 0x200 and nothing else changes; one longer than the program region is
rejected, copies nothing and logs LOAD_TOO_LARGE with pc 0x200. The reported result and the closed load are the
model's own fields (log entries 8, 9). -/
def Obligations.LoadCopiesOrRejects : Prop :=
  ∀ (s : State) (bytes : List Byte) (rest : List DriverOp), s.schedule = .load bytes :: rest → s.loadOpen = true →
    (bytes.length ≤ s.params.stackRegionOffset - 0x200 →
      ∃ t, step s = .next t ∧
        t = { s with mem := t.mem, schedule := rest, loadOk := some true, loadOpen := false } ∧
        (∀ a, a < 0x200 ∨ 0x200 + bytes.length ≤ a → t.mem.read a = s.mem.read a) ∧
        (s.mem.wf = true → s.params.legal = true →
          ∀ (k : Nat) (h : k < bytes.length), t.mem.read (0x200 + k) = bytes[k])) ∧
    (s.params.stackRegionOffset - 0x200 < bytes.length →
      step s = .next { s with
        wlog := s.wlog ++ [{ code := .loadTooLarge, pc := 0x200 }]
        schedule := rest, loadOk := some false, loadOpen := false })

/-! ### The driver (60_exceptions.md section 7) -/

/-- 60_exceptions.md R440, R444 (any sequence of operations is the spec's decision D34, the schedule as data log entry 7):
a scheduled `step()` does what `step()` does with nothing scheduled, and leaves the rest of the schedule, so that every
statement about a step with nothing scheduled is one about a step among other operations; where the driver calls
nothing, nothing changes but the schedule. -/
def Obligations.AScheduledStepIsTheSameStep : Prop :=
  ∀ (s : State) (rest : List DriverOp),
    (s.schedule = .step :: rest →
      step s = mapNext (fun t => t.withSchedule rest) (step (s.withSchedule []))) ∧
    (s.schedule = .idle :: rest → step s = .next (s.withSchedule rest))

/-- 60_exceptions.md R446 (the spec's decision D41; the schedule and the refusal are log entries 7 and 8): a run from a
reset that ends in a fault at the driver's M-th call of `step()` has good ends after fewer calls only, whatever other
operations stand among them. -/
def Obligations.AFaultedRunHasNoLaterGoodEnd : Prop :=
  ∀ (s t u : State) (M N : Nat), faultedEnd M s t → goodEnd N s u → N < M
end

