-- ==== Sys2Proof/Laws/Display.lean ====
section
/-! SUPPORT. The laws of the display: a cell read after a toggle, and what one plotted pixel, one
sprite row and a whole sprite do. -/

namespace Sys2Proof.Machine

/-- A cell read after a toggle: inverted at the toggled place, as before elsewhere. -/
theorem Display.cell_toggle (d : Display) (r q : Fin 32) (c e : Fin 64) :
    (d.toggle r c).cell q e = if q = r ∧ e = c then !d.cell q e else d.cell q e := by
  unfold Display.toggle Display.cell
  by_cases hr : q = r
  · subst hr
    by_cases hc : e = c
    · subst hc; simp
    · have : ¬ c.val = e.val := fun h => hc (Fin.ext h.symm)
      simp [hc, this]
  · have : ¬ r.val = q.val := fun h => hr (Fin.ext h.symm)
    simp [hr, this]

/-- Every cell of the cleared display is 0. -/
@[simp] theorem Display.cell_clear (r : Fin 32) (c : Fin 64) : Display.clear.cell r c = false := by
  simp [Display.clear, Display.cell]

/-- Two displays with the same cells are equal. -/
theorem Display.ext_cell {d e : Display} (h : ∀ r c, d.cell r c = e.cell r c) : d = e := by
  apply Vector.ext
  intro r hr
  apply Vector.ext
  intro c hc
  exact h ⟨r, hr⟩ ⟨c, hc⟩

/-- One plotted pixel: its cell is inverted. -/
theorem cell_plotPixel (acc : Display × Bool) (x y : Nat) (r : Fin 32) (c : Fin 64) :
    (plotPixel acc x y).1.cell r c =
      if r = wrapRow y ∧ c = wrapCol x then !acc.1.cell r c else acc.1.cell r c :=
  Display.cell_toggle _ _ _ _ _

/-- One plotted pixel: the collision is accumulated (R204). -/
theorem collision_plotPixel (acc : Display × Bool) (x y : Nat) :
    (plotPixel acc x y).2 = (acc.2 || acc.1.cell (wrapRow y) (wrapCol x)) := rfl

/-- How far right of column `vx` a column stands, modulo the width. -/
def colsRight (vx : Nat) (c : Fin 64) : Nat := (c.val + (64 - vx % 64)) % 64

/-- How far below row `vy` a row stands, modulo the height. -/
def rowsDown (vy : Nat) (r : Fin 32) : Nat := (r.val + (32 - vy % 32)) % 32

/-- A column is the wrapped column `vx + k` exactly when it stands `k` right of `vx`. -/
theorem eq_wrapCol_iff (vx k : Nat) (hk : k < 64) (c : Fin 64) : c = wrapCol (vx + k) ↔ colsRight vx c = k := by
  have := c.isLt
  simp only [Fin.ext_iff, wrapCol, colsRight, Config.dispW]
  omega

/-- A row is the wrapped row `vy + k` exactly when it stands `k` below `vy`. -/
theorem eq_wrapRow_iff (vy k : Nat) (hk : k < 32) (r : Fin 32) : r = wrapRow (vy + k) ↔ rowsDown vy r = k := by
  have := r.isLt
  simp only [Fin.ext_iff, wrapRow, rowsDown, Config.dispH]
  omega

/-- Whether a sprite row `b` at column `vx` has a set bit on column `c`. -/
def rowCovers (vx : Nat) (b : Byte) (c : Fin 64) : Prop :=
  colsRight vx c < 8 ∧ b.getLsbD (7 - colsRight vx c) = true

/-- The first `m` columns of a sprite row, by induction on `m`. -/
theorem plotRow_prefix (vx y : Nat) (b : Byte) (acc : Display × Bool) (m : Nat) (hm : m ≤ 8) :
    let out := (List.range m).foldl (fun a c => if b.getLsbD (7 - c) then plotPixel a (vx + c) y else a) acc
    (∀ r c, out.1.cell r c ≠ acc.1.cell r c ↔
      r = wrapRow y ∧ colsRight vx c < m ∧ b.getLsbD (7 - colsRight vx c) = true) ∧
    (out.2 = true ↔ acc.2 = true ∨
      ∃ c, colsRight vx c < m ∧ b.getLsbD (7 - colsRight vx c) = true ∧ acc.1.cell (wrapRow y) c = true) := by
  induction m with
  | zero => simp
  | succ m ih =>
    obtain ⟨ih1, ih2⟩ := ih (by omega)
    simp only [List.range_succ, List.foldl_append, List.foldl_cons, List.foldl_nil]
    generalize (List.range m).foldl
      (fun a c => if b.getLsbD (7 - c) then plotPixel a (vx + c) y else a) acc = mid at *
    by_cases hb : b.getLsbD (7 - m) = true
    · simp only [hb, if_true]
      constructor
      · intro r c
        rw [cell_plotPixel]
        have hc := eq_wrapCol_iff vx m (by omega) c
        have h1 := ih1 r c
        by_cases hr : r = wrapRow y
        · by_cases hcm : colsRight vx c = m
          · have e : mid.1.cell r c = acc.1.cell r c := by
              by_contra h; have := h1.1 h; omega
            rw [if_pos ⟨hr, hc.2 hcm⟩, e]
            simp [hr, hcm, hb]
          · rw [if_neg (fun h => hcm (hc.1 h.2)), h1]
            constructor
            · rintro ⟨a, b, c⟩; exact ⟨a, by omega, c⟩
            · rintro ⟨a, b, c⟩; exact ⟨a, by omega, c⟩
        · rw [if_neg (fun h => hr h.1), h1]; simp [hr]
      · rw [collision_plotPixel, Bool.or_eq_true, ih2]
        have hc := eq_wrapCol_iff vx m (by omega) (wrapCol (vx + m))
        have hcr : colsRight vx (wrapCol (vx + m)) = m := hc.1 rfl
        have e : mid.1.cell (wrapRow y) (wrapCol (vx + m)) = acc.1.cell (wrapRow y) (wrapCol (vx + m)) := by
          by_contra h; have := (ih1 _ _).1 h; omega
        rw [e]
        constructor
        · rintro ((h | ⟨c, h1, h2, h3⟩) | h)
          · exact .inl h
          · exact .inr ⟨c, by omega, h2, h3⟩
          · exact .inr ⟨_, by omega, by rw [hcr]; exact hb, h⟩
        · rintro (h | ⟨c, h1, h2, h3⟩)
          · exact .inl (.inl h)
          · by_cases hcm : colsRight vx c = m
            · rw [(eq_wrapCol_iff vx m (by omega) c).2 hcm] at h3; exact .inr h3
            · exact .inl (.inr ⟨c, by omega, h2, h3⟩)
    · have aux : ∀ c : Fin 64, (colsRight vx c < m + 1 ∧ b.getLsbD (7 - colsRight vx c) = true) ↔
          (colsRight vx c < m ∧ b.getLsbD (7 - colsRight vx c) = true) := by
        intro c
        constructor
        · rintro ⟨h1, h2⟩
          refine ⟨?_, h2⟩
          by_contra h
          rw [show colsRight vx c = m by omega] at h2
          exact hb h2
        · rintro ⟨h1, h2⟩; exact ⟨by omega, h2⟩
      rw [if_neg hb]
      refine ⟨fun r c => by rw [ih1, aux], ?_⟩
      rw [ih2]
      simp only [← and_assoc, aux]

/-- One sprite row: it inverts exactly the cells of its row it covers, and collides exactly on a set one. -/
theorem plotRow_spec (acc : Display × Bool) (vx y : Nat) (b : Byte) :
    (∀ r c, (plotRow acc vx y b).1.cell r c ≠ acc.1.cell r c ↔ r = wrapRow y ∧ rowCovers vx b c) ∧
    ((plotRow acc vx y b).2 = true ↔ acc.2 = true ∨ ∃ c, rowCovers vx b c ∧ acc.1.cell (wrapRow y) c = true) := by
  have := plotRow_prefix vx y b acc 8 (Nat.le_refl 8)
  simpa only [plotRow, rowCovers, and_assoc] using this

/-- A sprite of at most 32 rows: it inverts exactly the cells it covers, and collides exactly on a set one. -/
theorem plotRows_spec (acc : Display × Bool) (vx y : Nat) (bs : List Byte) (h : bs.length ≤ 32) :
    (∀ r c, (plotRows acc vx y bs).1.cell r c ≠ acc.1.cell r c ↔
      ∃ k, ∃ hk : k < bs.length, r = wrapRow (y + k) ∧ rowCovers vx bs[k] c) ∧
    ((plotRows acc vx y bs).2 = true ↔ acc.2 = true ∨
      ∃ k, ∃ hk : k < bs.length, ∃ c, rowCovers vx bs[k] c ∧ acc.1.cell (wrapRow (y + k)) c = true) := by
  induction bs generalizing acc y with
  | nil => simp [plotRows]
  | cons b bs ih =>
    simp only [List.length_cons] at h
    obtain ⟨ih1, ih2⟩ := ih (plotRow acc vx y b) (y + 1) (by omega)
    obtain ⟨p1, p2⟩ := plotRow_spec acc vx y b
    have far : ∀ k < bs.length, wrapRow (y + 1 + k) ≠ wrapRow y := by
      intro k hk e
      have := (eq_wrapRow_iff y (1 + k) (by omega) (wrapRow y))
      have h0 := (eq_wrapRow_iff y 0 (by omega) (wrapRow y)).1 rfl
      rw [← Nat.add_assoc] at this
      have := this.1 e.symm
      omega
    constructor
    · intro r c
      rw [plotRows]
      have q1 := ih1 r c
      have q2 := p1 r c
      constructor
      · intro hne
        by_cases e : (plotRows (plotRow acc vx y b) vx (y + 1) bs).1.cell r c = (plotRow acc vx y b).1.cell r c
        · rw [e] at hne
          obtain ⟨h1, h2⟩ := q2.1 hne
          exact ⟨0, by simp, h1, h2⟩
        · obtain ⟨k, hk, h1, h2⟩ := q1.1 e
          exact ⟨k + 1, by simpa using hk, by rw [h1]; congr 1; omega, by simpa using h2⟩
      · rintro ⟨k, hk, h1, h2⟩
        cases k with
        | zero =>
          have e : (plotRows (plotRow acc vx y b) vx (y + 1) bs).1.cell r c = (plotRow acc vx y b).1.cell r c := by
            by_contra hn
            obtain ⟨j, hj, h3, _⟩ := q1.1 hn
            exact far j hj (h3 ▸ h1)
          rw [e]
          exact q2.2 ⟨h1, h2⟩
        | succ k =>
          simp only [List.length_cons] at hk
          have h1' : r = wrapRow (y + 1 + k) := by rw [h1]; congr 1; omega
          have e : (plotRow acc vx y b).1.cell r c = acc.1.cell r c := by
            by_contra hn
            have := (q2.1 hn).1
            exact far k (by omega) (h1' ▸ this)
          rw [← e]
          exact q1.2 ⟨k, by omega, h1', by simpa using h2⟩
    · rw [plotRows, ih2, p2]
      have same : ∀ k < bs.length, ∀ c, (plotRow acc vx y b).1.cell (wrapRow (y + 1 + k)) c = acc.1.cell (wrapRow (y + 1 + k)) c := by
        intro k hk c
        by_contra hn
        exact far k hk ((p1 _ c).1 hn).1
      constructor
      · rintro ((h | ⟨c, h1, h2⟩) | ⟨k, hk, c, h1, h2⟩)
        · exact .inl h
        · exact .inr ⟨0, by simp, c, h1, h2⟩
        · rw [same k hk] at h2
          exact .inr ⟨k + 1, by simpa using hk, c, by simpa using h1, by rw [show y + (k + 1) = y + 1 + k by omega]; exact h2⟩
      · rintro (h | ⟨k, hk, c, h1, h2⟩)
        · exact .inl (.inl h)
        · cases k with
          | zero => exact .inl (.inr ⟨c, h1, h2⟩)
          | succ k =>
            simp only [List.length_cons] at hk
            refine .inr ⟨k, by omega, c, by simpa using h1, ?_⟩
            rw [same k (by omega), show y + 1 + k = y + (k + 1) by omega]
            exact h2

end Sys2Proof.Machine
end

