-- ==== Sys2Proof/Laws/Encoding.lean ====
section
/-! SUPPORT. Words as numbers, and the fields cut from a word put together from fields. -/

namespace Sys2Proof

/-- A range of bits of a word as a number. -/
theorem toNat_extract (w : Word) (start len : Nat) :
    (w.extractLsb' start len).toNat = w.toNat / 2 ^ start % 2 ^ len := by
  simp [BitVec.extractLsb'_toNat, Nat.shiftRight_eq_div_pow]

/-- A concatenation as a number. -/
theorem toNat_concat {m n : Nat} (a : BitVec m) (b : BitVec n) : (a ++ b).toNat = a.toNat * 2 ^ n + b.toNat := by
  rw [BitVec.toNat_append, ← Nat.shiftLeft_add_eq_or_of_lt b.isLt, Nat.shiftLeft_eq]

@[simp] theorem toNat_nibbleOf (r : Reg) : (nibbleOf r).toNat = r.val := rfl

@[simp] theorem val_regOf (b : Nibble) : (regOf b).val = b.toNat := rfl

theorem toNat_wordNNN (g : Nibble) (a : Addr) : (wordNNN g a).toNat = g.toNat * 4096 + a.toNat := by
  rw [wordNNN, toNat_concat]
  omega

theorem toNat_wordXKK (g : Nibble) (x : Reg) (kk : Byte) :
    (wordXKK g x kk).toNat = g.toNat * 4096 + x.val * 256 + kk.toNat := by
  rw [wordXKK, toNat_concat, toNat_concat, toNat_nibbleOf]
  omega

theorem toNat_wordXYN (g : Nibble) (x y : Reg) (n : Nibble) :
    (wordXYN g x y n).toNat = g.toNat * 4096 + x.val * 256 + y.val * 16 + n.toNat := by
  rw [wordXYN, toNat_concat, toNat_concat, toNat_concat, toNat_nibbleOf, toNat_nibbleOf]
  omega

/-- The fields of `g ‖ nnn`. -/
theorem fieldsOf_wordNNN (g : Nibble) (a : Addr) :
    (fieldsOf (wordNNN g a)).group = g ∧ (fieldsOf (wordNNN g a)).nnn = a := by
  have := a.isLt
  have := g.isLt
  constructor <;> apply BitVec.eq_of_toNat_eq <;> simp only [fieldsOf, toNat_extract, toNat_wordNNN] <;> omega

/-- The fields of `g ‖ x ‖ kk`. -/
theorem fieldsOf_wordXKK (g : Nibble) (x : Reg) (kk : Byte) :
    (fieldsOf (wordXKK g x kk)).group = g ∧ regOf (fieldsOf (wordXKK g x kk)).x = x ∧
      (fieldsOf (wordXKK g x kk)).kk = kk := by
  have := kk.isLt
  have := g.isLt
  have := x.isLt
  refine ⟨BitVec.eq_of_toNat_eq ?_, Fin.ext ?_, BitVec.eq_of_toNat_eq ?_⟩ <;>
    simp only [val_regOf, fieldsOf, toNat_extract, toNat_wordXKK] <;> omega

/-- The fields of `g ‖ x ‖ y ‖ n`. -/
theorem fieldsOf_wordXYN (g : Nibble) (x y : Reg) (n : Nibble) :
    (fieldsOf (wordXYN g x y n)).group = g ∧ regOf (fieldsOf (wordXYN g x y n)).x = x ∧
      regOf (fieldsOf (wordXYN g x y n)).y = y ∧ (fieldsOf (wordXYN g x y n)).n = n := by
  have := n.isLt
  have := g.isLt
  have := x.isLt
  have := y.isLt
  refine ⟨BitVec.eq_of_toNat_eq ?_, Fin.ext ?_, Fin.ext ?_, BitVec.eq_of_toNat_eq ?_⟩ <;>
    simp only [val_regOf, fieldsOf, toNat_extract, toNat_wordXYN] <;> omega

/-- The two bytes of a word, byte 0 high, are the word (R121). -/
theorem wordOf_hi_lo (w : Word) : wordOf (hiByte w) (loByte w) = w := by
  apply BitVec.eq_of_toNat_eq
  have := w.isLt
  rw [wordOf, toNat_concat]
  simp only [hiByte, loByte, toNat_extract]
  omega

end Sys2Proof
end

