-- ==== Sys2Proof/Laws/Memory.lean ====
section
/-! SUPPORT. The laws of memory: a read after a write, the canonical form kept, and the bounds check in closed
form. -/

namespace Sys2Proof.Machine

/-- A weaker lower bound. -/
theorem Memory.wfFrom_mono {lo hi : Nat} {m : Memory} (h : m.wfFrom hi = true) (hle : lo ≤ hi) :
    m.wfFrom lo = true := by
  cases m with
  | nil => rfl
  | cons e rest =>
    obtain ⟨k, v⟩ := e
    simp only [Memory.wfFrom, Bool.and_eq_true, decide_eq_true_eq] at h ⊢
    exact ⟨⟨⟨by omega, h.1.1.2⟩, h.1.2⟩, h.2⟩

/-- Below the lower bound every address holds its reset byte. -/
theorem Memory.read_below {lo : Nat} {m : Memory} (h : m.wfFrom lo = true) {a : Nat} (ha : a < lo) :
    m.read a = resetByte a := by
  induction m generalizing lo with
  | nil => rfl
  | cons e rest ih =>
    obtain ⟨k, v⟩ := e
    simp only [Memory.wfFrom, Bool.and_eq_true, decide_eq_true_eq] at h
    have hk : ¬ k = a := by omega
    simp only [Memory.read, hk, if_false]
    exact ih h.2 (by omega)

/-- A write leaves every other address as it was; no premise on the form of the memory. -/
theorem Memory.read_write_other (m : Memory) (a b : Nat) (v : Byte) (hb : b ≠ a) :
    (m.write a v).read b = m.read b := by
  have hab : ¬ a = b := fun e => hb e.symm
  induction m with
  | nil => unfold Memory.write; split <;> simp [Memory.read, hab]
  | cons e rest ih =>
    obtain ⟨k, w⟩ := e
    unfold Memory.write
    split
    · split
      · rfl
      · simp [Memory.read, hab]
    · split
      · rename_i hak
        subst hak
        split <;> simp [Memory.read, hab]
      · simp only [Memory.read, ih]

/-- A write keeps the canonical form. -/
theorem Memory.wfFrom_write {lo : Nat} {m : Memory} (h : m.wfFrom lo = true) {a : Nat} (hlo : lo ≤ a)
    (ha : a < Config.memSize) (v : Byte) : (m.write a v).wfFrom lo = true := by
  induction m generalizing lo with
  | nil =>
    unfold Memory.write
    split
    · rfl
    · simp_all [Memory.wfFrom]
  | cons e rest ih =>
    obtain ⟨k, w⟩ := e
    have h0 := h
    simp only [Memory.wfFrom, Bool.and_eq_true, decide_eq_true_eq] at h
    obtain ⟨⟨⟨h1, h2⟩, h3⟩, h4⟩ := h
    unfold Memory.write
    split
    · rename_i hak
      split
      · exact h0
      · rename_i hv
        simp only [Memory.wfFrom, Bool.and_eq_true, decide_eq_true_eq]
        exact ⟨⟨⟨hlo, ha⟩, hv⟩, ⟨⟨by omega, h2⟩, h3⟩, h4⟩
    · split
      · rename_i hak
        subst hak
        split
        · exact Memory.wfFrom_mono h4 (by omega)
        · rename_i hv
          simp only [Memory.wfFrom, Bool.and_eq_true, decide_eq_true_eq]
          exact ⟨⟨⟨h1, h2⟩, hv⟩, h4⟩
      · simp only [Memory.wfFrom, Bool.and_eq_true, decide_eq_true_eq]
        exact ⟨⟨⟨h1, h2⟩, h3⟩, ih h4 (by omega)⟩

/-- A write to an address of memory keeps the canonical form. -/
theorem Memory.wf_write {m : Memory} (h : m.wf = true) {a : Nat} (ha : a < Config.memSize) (v : Byte) :
    (m.write a v).wf = true := Memory.wfFrom_write h (Nat.zero_le a) ha v

/-- A read gives the byte last written. -/
theorem Memory.read_write_same {m : Memory} (h : m.wf = true) (a : Nat) (v : Byte) : (m.write a v).read a = v := by
  unfold Memory.wf at h
  generalize 0 = lo at h
  induction m generalizing lo with
  | nil =>
    unfold Memory.write
    split
    · rename_i hv; simp [Memory.read, hv]
    · simp [Memory.read]
  | cons e rest ih =>
    obtain ⟨k, w⟩ := e
    simp only [Memory.wfFrom, Bool.and_eq_true, decide_eq_true_eq] at h
    obtain ⟨_, h4⟩ := h
    unfold Memory.write
    split
    · rename_i hak
      split
      · rename_i hv
        have hk : ¬ k = a := by omega
        simp only [Memory.read, hk, if_false]
        rw [Memory.read_below h4 (by omega), hv]
      · simp [Memory.read]
    · split
      · rename_i hak
        subst hak
        split
        · rename_i hv
          rw [Memory.read_below h4 (by omega), hv]
        · simp [Memory.read]
      · rename_i hak
        have hk : ¬ k = a := fun e => hak e.symm
        simp only [Memory.read, hk, if_false]
        exact ih _ h4

/-- Consecutive writes leave every address outside them as it was. -/
theorem Memory.read_writeBytes_other (m : Memory) (a b : Nat) (bs : List Byte) (hb : b < a ∨ a + bs.length ≤ b) :
    (m.writeBytes a bs).read b = m.read b := by
  induction bs generalizing m a with
  | nil => rfl
  | cons v rest ih =>
    simp only [List.length_cons] at hb
    rw [Memory.writeBytes, ih _ _ (by omega), Memory.read_write_other _ _ _ _ (by omega)]

/-- Consecutive writes within memory keep the canonical form. -/
theorem Memory.wf_writeBytes {m : Memory} (h : m.wf = true) (a : Nat) (bs : List Byte)
    (ha : a + bs.length ≤ Config.memSize) : (m.writeBytes a bs).wf = true := by
  induction bs generalizing m a with
  | nil => exact h
  | cons v rest ih =>
    simp only [List.length_cons] at ha
    exact ih (Memory.wf_write h (by omega) v) (a + 1) (by omega)

/-- The k-th of consecutive bytes reads as written. -/
theorem Memory.read_writeBytes {m : Memory} (h : m.wf = true) (a : Nat) (bs : List Byte)
    (ha : a + bs.length ≤ Config.memSize) {k : Nat} (hk : k < bs.length) :
    (m.writeBytes a bs).read (a + k) = bs[k] := by
  induction bs generalizing m a k with
  | nil => exact absurd hk (Nat.not_lt_zero k)
  | cons v rest ih =>
    simp only [List.length_cons] at ha hk
    rw [Memory.writeBytes]
    cases k with
    | zero =>
      rw [Memory.read_writeBytes_other _ _ _ _ (by omega)]
      exact Memory.read_write_same h _ v
    | succ j =>
      have ha0 : a < Config.memSize := by omega
      have := ih (Memory.wf_write h ha0 v) (a + 1) (by omega) (k := j) (by omega)
      rw [show a + (j + 1) = a + 1 + j by omega, this]
      rfl

/-- The bounds check in closed form: an access reaches past memory exactly when its last byte does, and the first
such address is MEM_SIZE, or the base where the base is already past. -/
theorem firstOutOfRange_eq (base count : Nat) :
    firstOutOfRange base count =
      if count = 0 ∨ base + count ≤ Config.memSize then none else some (max base Config.memSize) := by
  unfold firstOutOfRange
  split
  · rename_i h
    rw [List.find?_eq_none]
    intro a ha
    simp only [List.mem_map, List.mem_range] at ha
    obtain ⟨k, hk, rfl⟩ := ha
    simp only [decide_eq_true_eq]
    omega
  · rename_i h
    rw [not_or] at h
    rw [List.find?_map, Option.map_eq_some_iff]
    refine ⟨max base Config.memSize - base, ?_, by omega⟩
    rw [List.find?_range_eq_some]
    simp only [Function.comp, List.mem_range, decide_eq_true_eq, Bool.not_eq_true', decide_eq_false_iff_not]
    refine ⟨by omega, by omega, ?_⟩
    intro j hj
    omega

/-- The bounds check passes exactly when every address of the access is in memory. -/
theorem firstOutOfRange_eq_none (base count : Nat) :
    firstOutOfRange base count = none ↔ ∀ k < count, base + k < Config.memSize := by
  rw [firstOutOfRange_eq]
  constructor
  · intro h k hk
    split at h
    · omega
    · exact absurd h (by simp)
  · intro h
    have : count = 0 ∨ base + count ≤ Config.memSize := by
      rcases Nat.eq_zero_or_pos count with h0 | h0
      · exact .inl h0
      · have := h (count - 1) (by omega)
        omega
    simp [this]

/-- A byte read back from a list of bytes read. -/
theorem Memory.readBytes_getElem (m : Memory) (base count k : Nat) (hk : k < (m.readBytes base count).length) :
    (m.readBytes base count)[k] = m.read (base + k) := by
  simp [Memory.readBytes]

/-- How many bytes a read of bytes gives. -/
@[simp] theorem Memory.readBytes_length (m : Memory) (base count : Nat) :
    (m.readBytes base count).length = count := by
  simp [Memory.readBytes]

end Sys2Proof.Machine
end

