-- ==== Sys2Proof/Laws/PerInstr.lean ====
section
/-! SUPPORT. One family of statements made per instruction: the encoder's word matches the instruction's row of
spec/opcode_table.json, its mask and its match. -/

namespace Sys2Proof.Laws.RowMatches

/-- The word of the instruction, masked as its row says, is its row's match. -/
def Statement (i : Instr) : Prop := encode i &&& (opcodeRow i).2 = (opcodeRow i).1

/-- A `g ‖ nnn` word under the mask 0xF000. -/
theorem mask_group_nnn (g : Nibble) (a : Addr) : wordNNN g a &&& 0xF000 = wordNNN g 0 := by
  apply BitVec.eq_of_getLsbD_eq
  intro k hk
  simp only [wordNNN, BitVec.getLsbD_and, BitVec.getLsbD_append]
  interval_cases k <;> simp

/-- A `g ‖ x ‖ kk` word under the mask 0xF000. -/
theorem mask_group_xkk (g : Nibble) (x : Reg) (kk : Byte) : wordXKK g x kk &&& 0xF000 = wordXKK g 0 0 := by
  apply BitVec.eq_of_getLsbD_eq
  intro k hk
  simp only [wordXKK, nibbleOf, BitVec.getLsbD_and, BitVec.getLsbD_append]
  interval_cases k <;> simp

/-- A `g ‖ x ‖ kk` word under the mask 0xF0FF. -/
theorem mask_group_kk (g : Nibble) (x : Reg) (kk : Byte) : wordXKK g x kk &&& 0xF0FF = wordXKK g 0 kk := by
  apply BitVec.eq_of_getLsbD_eq
  intro k hk
  simp only [wordXKK, nibbleOf, BitVec.getLsbD_and, BitVec.getLsbD_append]
  interval_cases k <;> simp

/-- A `g ‖ x ‖ y ‖ n` word under the mask 0xF000. -/
theorem mask_group_xyn (g : Nibble) (x y : Reg) (n : Nibble) : wordXYN g x y n &&& 0xF000 = wordXYN g 0 0 0 := by
  apply BitVec.eq_of_getLsbD_eq
  intro k hk
  simp only [wordXYN, nibbleOf, BitVec.getLsbD_and, BitVec.getLsbD_append]
  interval_cases k <;> simp

/-- A `g ‖ x ‖ y ‖ n` word under the mask 0xF00F. -/
theorem mask_group_n (g : Nibble) (x y : Reg) (n : Nibble) : wordXYN g x y n &&& 0xF00F = wordXYN g 0 0 n := by
  apply BitVec.eq_of_getLsbD_eq
  intro k hk
  simp only [wordXYN, nibbleOf, BitVec.getLsbD_and, BitVec.getLsbD_append]
  interval_cases k <;> simp

/-- The word 00E0 under the mask 0xFFFF. -/
theorem mask_all_cls : wordNNN 0x0 0x0E0 &&& 0xFFFF = 0x00E0 := by decide

/-- The word 00EE under the mask 0xFFFF. -/
theorem mask_all_ret : wordNNN 0x0 0x0EE &&& 0xFFFF = 0x00EE := by decide

theorem cls : Statement .cls := mask_all_cls
theorem ret : Statement .ret := mask_all_ret
theorem jp (nnn : Addr) : Statement (.jp nnn) := mask_group_nnn _ _
theorem call (nnn : Addr) : Statement (.call nnn) := mask_group_nnn _ _
theorem seImm (x : Reg) (kk : Byte) : Statement (.seImm x kk) := mask_group_xkk _ _ _
theorem sneImm (x : Reg) (kk : Byte) : Statement (.sneImm x kk) := mask_group_xkk _ _ _
theorem seReg (x y : Reg) (n : Nibble) : Statement (.seReg x y n) := mask_group_xyn _ _ _ _
theorem ldImm (x : Reg) (kk : Byte) : Statement (.ldImm x kk) := mask_group_xkk _ _ _
theorem addImm (x : Reg) (kk : Byte) : Statement (.addImm x kk) := mask_group_xkk _ _ _
theorem ldReg (x y : Reg) : Statement (.ldReg x y) := mask_group_n _ _ _ _
theorem orReg (x y : Reg) : Statement (.orReg x y) := mask_group_n _ _ _ _
theorem andReg (x y : Reg) : Statement (.andReg x y) := mask_group_n _ _ _ _
theorem xorReg (x y : Reg) : Statement (.xorReg x y) := mask_group_n _ _ _ _
theorem addReg (x y : Reg) : Statement (.addReg x y) := mask_group_n _ _ _ _
theorem sub (x y : Reg) : Statement (.sub x y) := mask_group_n _ _ _ _
theorem shr (x y : Reg) : Statement (.shr x y) := mask_group_n _ _ _ _
theorem subn (x y : Reg) : Statement (.subn x y) := mask_group_n _ _ _ _
theorem shl (x y : Reg) : Statement (.shl x y) := mask_group_n _ _ _ _
theorem sneReg (x y : Reg) (n : Nibble) : Statement (.sneReg x y n) := mask_group_xyn _ _ _ _
theorem ldI (nnn : Addr) : Statement (.ldI nnn) := mask_group_nnn _ _
theorem jpV0 (nnn : Addr) : Statement (.jpV0 nnn) := mask_group_nnn _ _
theorem rnd (x : Reg) (kk : Byte) : Statement (.rnd x kk) := mask_group_xkk _ _ _
theorem drw (x y : Reg) (n : Nibble) : Statement (.drw x y n) := mask_group_xyn _ _ _ _
theorem skp (x : Reg) : Statement (.skp x) := mask_group_kk _ _ _
theorem sknp (x : Reg) : Statement (.sknp x) := mask_group_kk _ _ _
theorem ldVxDt (x : Reg) : Statement (.ldVxDt x) := mask_group_kk _ _ _
theorem ldVxK (x : Reg) : Statement (.ldVxK x) := mask_group_kk _ _ _
theorem ldDtVx (x : Reg) : Statement (.ldDtVx x) := mask_group_kk _ _ _
theorem ldStVx (x : Reg) : Statement (.ldStVx x) := mask_group_kk _ _ _
theorem addI (x : Reg) : Statement (.addI x) := mask_group_kk _ _ _
theorem ldF (x : Reg) : Statement (.ldF x) := mask_group_kk _ _ _
theorem ldB (x : Reg) : Statement (.ldB x) := mask_group_kk _ _ _
theorem ldMemVx (x : Reg) : Statement (.ldMemVx x) := mask_group_kk _ _ _
theorem ldVxMem (x : Reg) : Statement (.ldVxMem x) := mask_group_kk _ _ _

end Sys2Proof.Laws.RowMatches
end

