-- ==== Sys2Proof/Laws/State.lean ====
section
/-! SUPPORT. One lemma per field per update of the state, each true by rfl, so that no later proof unfolds a record
update; and what the stack operations leave alone. -/

namespace Sys2Proof.Machine

section setV

variable (s : State) (r : Reg) (v : Byte)

@[simp] theorem setV_mem : (s.setV r v).mem = s.mem := rfl
@[simp] theorem setV_V : (s.setV r v).V = s.V.set r.val v := rfl
@[simp] theorem setV_I : (s.setV r v).I = s.I := rfl
@[simp] theorem setV_pc : (s.setV r v).pc = s.pc := rfl
@[simp] theorem setV_stack : (s.setV r v).stack = s.stack := rfl
@[simp] theorem setV_sp : (s.setV r v).sp = s.sp := rfl
@[simp] theorem setV_DT : (s.setV r v).DT = s.DT := rfl
@[simp] theorem setV_ST : (s.setV r v).ST = s.ST := rfl
@[simp] theorem setV_disp : (s.setV r v).disp = s.disp := rfl
@[simp] theorem setV_kwt : (s.setV r v).kwt = s.kwt := rfl
@[simp] theorem setV_halt : (s.setV r v).halt = s.halt := rfl
@[simp] theorem setV_wlog : (s.setV r v).wlog = s.wlog := rfl
@[simp] theorem setV_tacc : (s.setV r v).tacc = s.tacc := rfl
@[simp] theorem setV_toneStops : (s.setV r v).toneStops = s.toneStops := rfl
@[simp] theorem setV_loadOk : (s.setV r v).loadOk = s.loadOk := rfl
@[simp] theorem setV_params : (s.setV r v).params = s.params := rfl
@[simp] theorem setV_inputs : (s.setV r v).inputs = s.inputs := rfl
@[simp] theorem setV_schedule : (s.setV r v).schedule = s.schedule := rfl
@[simp] theorem setV_loadOpen : (s.setV r v).loadOpen = s.loadOpen := rfl

end setV

section setVF

variable (s : State) (f : Byte)

@[simp] theorem setVF_mem : (s.setVF f).mem = s.mem := rfl
@[simp] theorem setVF_V : (s.setVF f).V = s.V.set 15 f := rfl
@[simp] theorem setVF_I : (s.setVF f).I = s.I := rfl
@[simp] theorem setVF_pc : (s.setVF f).pc = s.pc := rfl
@[simp] theorem setVF_stack : (s.setVF f).stack = s.stack := rfl
@[simp] theorem setVF_sp : (s.setVF f).sp = s.sp := rfl
@[simp] theorem setVF_DT : (s.setVF f).DT = s.DT := rfl
@[simp] theorem setVF_ST : (s.setVF f).ST = s.ST := rfl
@[simp] theorem setVF_disp : (s.setVF f).disp = s.disp := rfl
@[simp] theorem setVF_kwt : (s.setVF f).kwt = s.kwt := rfl
@[simp] theorem setVF_halt : (s.setVF f).halt = s.halt := rfl
@[simp] theorem setVF_wlog : (s.setVF f).wlog = s.wlog := rfl
@[simp] theorem setVF_tacc : (s.setVF f).tacc = s.tacc := rfl
@[simp] theorem setVF_toneStops : (s.setVF f).toneStops = s.toneStops := rfl
@[simp] theorem setVF_loadOk : (s.setVF f).loadOk = s.loadOk := rfl
@[simp] theorem setVF_params : (s.setVF f).params = s.params := rfl
@[simp] theorem setVF_inputs : (s.setVF f).inputs = s.inputs := rfl
@[simp] theorem setVF_schedule : (s.setVF f).schedule = s.schedule := rfl
@[simp] theorem setVF_loadOpen : (s.setVF f).loadOpen = s.loadOpen := rfl

end setVF

section advance

variable (s : State)

@[simp] theorem advance_mem : s.advance.mem = s.mem := rfl
@[simp] theorem advance_V : s.advance.V = s.V := rfl
@[simp] theorem advance_I : s.advance.I = s.I := rfl
@[simp] theorem advance_pc : s.advance.pc = s.pc + 2 := rfl
@[simp] theorem advance_stack : s.advance.stack = s.stack := rfl
@[simp] theorem advance_sp : s.advance.sp = s.sp := rfl
@[simp] theorem advance_DT : s.advance.DT = s.DT := rfl
@[simp] theorem advance_ST : s.advance.ST = s.ST := rfl
@[simp] theorem advance_disp : s.advance.disp = s.disp := rfl
@[simp] theorem advance_kwt : s.advance.kwt = s.kwt := rfl
@[simp] theorem advance_halt : s.advance.halt = s.halt := rfl
@[simp] theorem advance_wlog : s.advance.wlog = s.wlog := rfl
@[simp] theorem advance_tacc : s.advance.tacc = s.tacc := rfl
@[simp] theorem advance_toneStops : s.advance.toneStops = s.toneStops := rfl
@[simp] theorem advance_loadOk : s.advance.loadOk = s.loadOk := rfl
@[simp] theorem advance_params : s.advance.params = s.params := rfl
@[simp] theorem advance_inputs : s.advance.inputs = s.inputs := rfl
@[simp] theorem advance_schedule : s.advance.schedule = s.schedule := rfl
@[simp] theorem advance_loadOpen : s.advance.loadOpen = s.loadOpen := rfl

end advance

section setPc

variable (s : State) (w : Word)

@[simp] theorem setPc_mem : (s.setPc w).mem = s.mem := rfl
@[simp] theorem setPc_V : (s.setPc w).V = s.V := rfl
@[simp] theorem setPc_I : (s.setPc w).I = s.I := rfl
@[simp] theorem setPc_pc : (s.setPc w).pc = w := rfl
@[simp] theorem setPc_stack : (s.setPc w).stack = s.stack := rfl
@[simp] theorem setPc_sp : (s.setPc w).sp = s.sp := rfl
@[simp] theorem setPc_DT : (s.setPc w).DT = s.DT := rfl
@[simp] theorem setPc_ST : (s.setPc w).ST = s.ST := rfl
@[simp] theorem setPc_disp : (s.setPc w).disp = s.disp := rfl
@[simp] theorem setPc_kwt : (s.setPc w).kwt = s.kwt := rfl
@[simp] theorem setPc_halt : (s.setPc w).halt = s.halt := rfl
@[simp] theorem setPc_wlog : (s.setPc w).wlog = s.wlog := rfl
@[simp] theorem setPc_tacc : (s.setPc w).tacc = s.tacc := rfl
@[simp] theorem setPc_toneStops : (s.setPc w).toneStops = s.toneStops := rfl
@[simp] theorem setPc_loadOk : (s.setPc w).loadOk = s.loadOk := rfl
@[simp] theorem setPc_params : (s.setPc w).params = s.params := rfl
@[simp] theorem setPc_inputs : (s.setPc w).inputs = s.inputs := rfl
@[simp] theorem setPc_schedule : (s.setPc w).schedule = s.schedule := rfl
@[simp] theorem setPc_loadOpen : (s.setPc w).loadOpen = s.loadOpen := rfl

end setPc

section setI

variable (s : State) (w : Word)

@[simp] theorem setI_mem : (s.setI w).mem = s.mem := rfl
@[simp] theorem setI_V : (s.setI w).V = s.V := rfl
@[simp] theorem setI_I : (s.setI w).I = w := rfl
@[simp] theorem setI_pc : (s.setI w).pc = s.pc := rfl
@[simp] theorem setI_stack : (s.setI w).stack = s.stack := rfl
@[simp] theorem setI_sp : (s.setI w).sp = s.sp := rfl
@[simp] theorem setI_DT : (s.setI w).DT = s.DT := rfl
@[simp] theorem setI_ST : (s.setI w).ST = s.ST := rfl
@[simp] theorem setI_disp : (s.setI w).disp = s.disp := rfl
@[simp] theorem setI_kwt : (s.setI w).kwt = s.kwt := rfl
@[simp] theorem setI_halt : (s.setI w).halt = s.halt := rfl
@[simp] theorem setI_wlog : (s.setI w).wlog = s.wlog := rfl
@[simp] theorem setI_tacc : (s.setI w).tacc = s.tacc := rfl
@[simp] theorem setI_toneStops : (s.setI w).toneStops = s.toneStops := rfl
@[simp] theorem setI_loadOk : (s.setI w).loadOk = s.loadOk := rfl
@[simp] theorem setI_params : (s.setI w).params = s.params := rfl
@[simp] theorem setI_inputs : (s.setI w).inputs = s.inputs := rfl
@[simp] theorem setI_schedule : (s.setI w).schedule = s.schedule := rfl
@[simp] theorem setI_loadOpen : (s.setI w).loadOpen = s.loadOpen := rfl

end setI

section skipIf

variable (s : State) (c : Bool)

@[simp] theorem skipIf_mem : (s.skipIf c).mem = s.mem := rfl
@[simp] theorem skipIf_V : (s.skipIf c).V = s.V := rfl
@[simp] theorem skipIf_I : (s.skipIf c).I = s.I := rfl
@[simp] theorem skipIf_pc : (s.skipIf c).pc = if c then s.pc + 2 else s.pc := rfl
@[simp] theorem skipIf_stack : (s.skipIf c).stack = s.stack := rfl
@[simp] theorem skipIf_sp : (s.skipIf c).sp = s.sp := rfl
@[simp] theorem skipIf_DT : (s.skipIf c).DT = s.DT := rfl
@[simp] theorem skipIf_ST : (s.skipIf c).ST = s.ST := rfl
@[simp] theorem skipIf_disp : (s.skipIf c).disp = s.disp := rfl
@[simp] theorem skipIf_kwt : (s.skipIf c).kwt = s.kwt := rfl
@[simp] theorem skipIf_halt : (s.skipIf c).halt = s.halt := rfl
@[simp] theorem skipIf_wlog : (s.skipIf c).wlog = s.wlog := rfl
@[simp] theorem skipIf_tacc : (s.skipIf c).tacc = s.tacc := rfl
@[simp] theorem skipIf_toneStops : (s.skipIf c).toneStops = s.toneStops := rfl
@[simp] theorem skipIf_loadOk : (s.skipIf c).loadOk = s.loadOk := rfl
@[simp] theorem skipIf_params : (s.skipIf c).params = s.params := rfl
@[simp] theorem skipIf_inputs : (s.skipIf c).inputs = s.inputs := rfl
@[simp] theorem skipIf_schedule : (s.skipIf c).schedule = s.schedule := rfl
@[simp] theorem skipIf_loadOpen : (s.skipIf c).loadOpen = s.loadOpen := rfl

end skipIf

section setST

variable (s : State) (v : Byte)

@[simp] theorem setST_mem : (s.setST v).mem = s.mem := rfl
@[simp] theorem setST_V : (s.setST v).V = s.V := rfl
@[simp] theorem setST_I : (s.setST v).I = s.I := rfl
@[simp] theorem setST_pc : (s.setST v).pc = s.pc := rfl
@[simp] theorem setST_stack : (s.setST v).stack = s.stack := rfl
@[simp] theorem setST_sp : (s.setST v).sp = s.sp := rfl
@[simp] theorem setST_DT : (s.setST v).DT = s.DT := rfl
@[simp] theorem setST_ST : (s.setST v).ST = v := rfl
@[simp] theorem setST_disp : (s.setST v).disp = s.disp := rfl
@[simp] theorem setST_kwt : (s.setST v).kwt = s.kwt := rfl
@[simp] theorem setST_halt : (s.setST v).halt = s.halt := rfl
@[simp] theorem setST_wlog : (s.setST v).wlog = s.wlog := rfl
@[simp] theorem setST_tacc : (s.setST v).tacc = s.tacc := rfl
@[simp] theorem setST_toneStops : (s.setST v).toneStops = if s.ST ≠ 0 ∧ v = 0 then s.toneStops + 1 else s.toneStops := rfl
@[simp] theorem setST_loadOk : (s.setST v).loadOk = s.loadOk := rfl
@[simp] theorem setST_params : (s.setST v).params = s.params := rfl
@[simp] theorem setST_inputs : (s.setST v).inputs = s.inputs := rfl
@[simp] theorem setST_schedule : (s.setST v).schedule = s.schedule := rfl
@[simp] theorem setST_loadOpen : (s.setST v).loadOpen = s.loadOpen := rfl

end setST

section warn

variable (s : State) (c : WarnCode) (A : Word)

@[simp] theorem warn_mem : (s.warn c A).mem = s.mem := rfl
@[simp] theorem warn_V : (s.warn c A).V = s.V := rfl
@[simp] theorem warn_I : (s.warn c A).I = s.I := rfl
@[simp] theorem warn_pc : (s.warn c A).pc = s.pc := rfl
@[simp] theorem warn_stack : (s.warn c A).stack = s.stack := rfl
@[simp] theorem warn_sp : (s.warn c A).sp = s.sp := rfl
@[simp] theorem warn_DT : (s.warn c A).DT = s.DT := rfl
@[simp] theorem warn_ST : (s.warn c A).ST = s.ST := rfl
@[simp] theorem warn_disp : (s.warn c A).disp = s.disp := rfl
@[simp] theorem warn_kwt : (s.warn c A).kwt = s.kwt := rfl
@[simp] theorem warn_halt : (s.warn c A).halt = s.halt := rfl
@[simp] theorem warn_wlog : (s.warn c A).wlog = s.wlog ++ [⟨c, A⟩] := rfl
@[simp] theorem warn_tacc : (s.warn c A).tacc = s.tacc := rfl
@[simp] theorem warn_toneStops : (s.warn c A).toneStops = s.toneStops := rfl
@[simp] theorem warn_loadOk : (s.warn c A).loadOk = s.loadOk := rfl
@[simp] theorem warn_params : (s.warn c A).params = s.params := rfl
@[simp] theorem warn_inputs : (s.warn c A).inputs = s.inputs := rfl
@[simp] theorem warn_schedule : (s.warn c A).schedule = s.schedule := rfl
@[simp] theorem warn_loadOpen : (s.warn c A).loadOpen = s.loadOpen := rfl

end warn

section spendRandom

variable (s : State)

@[simp] theorem spendRandom_mem : s.spendRandom.mem = s.mem := rfl
@[simp] theorem spendRandom_V : s.spendRandom.V = s.V := rfl
@[simp] theorem spendRandom_I : s.spendRandom.I = s.I := rfl
@[simp] theorem spendRandom_pc : s.spendRandom.pc = s.pc := rfl
@[simp] theorem spendRandom_stack : s.spendRandom.stack = s.stack := rfl
@[simp] theorem spendRandom_sp : s.spendRandom.sp = s.sp := rfl
@[simp] theorem spendRandom_DT : s.spendRandom.DT = s.DT := rfl
@[simp] theorem spendRandom_ST : s.spendRandom.ST = s.ST := rfl
@[simp] theorem spendRandom_disp : s.spendRandom.disp = s.disp := rfl
@[simp] theorem spendRandom_kwt : s.spendRandom.kwt = s.kwt := rfl
@[simp] theorem spendRandom_halt : s.spendRandom.halt = s.halt := rfl
@[simp] theorem spendRandom_wlog : s.spendRandom.wlog = s.wlog := rfl
@[simp] theorem spendRandom_tacc : s.spendRandom.tacc = s.tacc := rfl
@[simp] theorem spendRandom_toneStops : s.spendRandom.toneStops = s.toneStops := rfl
@[simp] theorem spendRandom_loadOk : s.spendRandom.loadOk = s.loadOk := rfl
@[simp] theorem spendRandom_params : s.spendRandom.params = s.params := rfl
@[simp] theorem spendRandom_inputs : s.spendRandom.inputs = { s.inputs with rands := s.inputs.rands.tail, randTick := s.inputs.randTick + 1 } := rfl
@[simp] theorem spendRandom_schedule : s.spendRandom.schedule = s.schedule := rfl
@[simp] theorem spendRandom_loadOpen : s.spendRandom.loadOpen = s.loadOpen := rfl

end spendRandom

section endStep

variable (s : State)

@[simp] theorem endStep_mem : s.endStep.mem = s.mem := rfl
@[simp] theorem endStep_V : s.endStep.V = s.V := rfl
@[simp] theorem endStep_I : s.endStep.I = s.I := rfl
@[simp] theorem endStep_pc : s.endStep.pc = s.pc := rfl
@[simp] theorem endStep_stack : s.endStep.stack = s.stack := rfl
@[simp] theorem endStep_sp : s.endStep.sp = s.sp := rfl
@[simp] theorem endStep_DT : s.endStep.DT = s.DT := rfl
@[simp] theorem endStep_ST : s.endStep.ST = s.ST := rfl
@[simp] theorem endStep_disp : s.endStep.disp = s.disp := rfl
@[simp] theorem endStep_kwt : s.endStep.kwt = s.kwt := rfl
@[simp] theorem endStep_halt : s.endStep.halt = s.halt := rfl
@[simp] theorem endStep_wlog : s.endStep.wlog = s.wlog := rfl
@[simp] theorem endStep_tacc : s.endStep.tacc = s.tacc := rfl
@[simp] theorem endStep_toneStops : s.endStep.toneStops = s.toneStops := rfl
@[simp] theorem endStep_loadOk : s.endStep.loadOk = s.loadOk := rfl
@[simp] theorem endStep_params : s.endStep.params = s.params := rfl
@[simp] theorem endStep_inputs : s.endStep.inputs = { s.inputs with keys := s.inputs.keys.tail, keyTick := s.inputs.keyTick + 1 } := rfl
@[simp] theorem endStep_schedule : s.endStep.schedule = s.schedule := rfl
@[simp] theorem endStep_loadOpen : s.endStep.loadOpen = false := rfl

end endStep

section raiseFault

variable (s : State) (c : FaultCode) (b : Option (Byte × Byte)) (a : Option Nat)

@[simp] theorem raiseFault_mem : (raiseFault c b a s).mem = s.mem := rfl
@[simp] theorem raiseFault_V : (raiseFault c b a s).V = s.V := rfl
@[simp] theorem raiseFault_I : (raiseFault c b a s).I = s.I := rfl
@[simp] theorem raiseFault_pc : (raiseFault c b a s).pc = s.pc := rfl
@[simp] theorem raiseFault_stack : (raiseFault c b a s).stack = s.stack := rfl
@[simp] theorem raiseFault_sp : (raiseFault c b a s).sp = s.sp := rfl
@[simp] theorem raiseFault_DT : (raiseFault c b a s).DT = s.DT := rfl
@[simp] theorem raiseFault_ST : (raiseFault c b a s).ST = s.ST := rfl
@[simp] theorem raiseFault_disp : (raiseFault c b a s).disp = s.disp := rfl
@[simp] theorem raiseFault_kwt : (raiseFault c b a s).kwt = s.kwt := rfl
@[simp] theorem raiseFault_halt : (raiseFault c b a s).halt = some ⟨c, s.pc, b, a⟩ := rfl
@[simp] theorem raiseFault_wlog : (raiseFault c b a s).wlog = s.wlog := rfl
@[simp] theorem raiseFault_tacc : (raiseFault c b a s).tacc = s.tacc := rfl
@[simp] theorem raiseFault_toneStops : (raiseFault c b a s).toneStops = s.toneStops := rfl
@[simp] theorem raiseFault_loadOk : (raiseFault c b a s).loadOk = s.loadOk := rfl
@[simp] theorem raiseFault_params : (raiseFault c b a s).params = s.params := rfl
@[simp] theorem raiseFault_inputs : (raiseFault c b a s).inputs = s.inputs := rfl
@[simp] theorem raiseFault_schedule : (raiseFault c b a s).schedule = s.schedule := rfl
@[simp] theorem raiseFault_loadOpen : (raiseFault c b a s).loadOpen = s.loadOpen := rfl

end raiseFault

section withSchedule

variable (s : State) (ops : List DriverOp)

@[simp] theorem withSchedule_mem : (s.withSchedule ops).mem = s.mem := rfl
@[simp] theorem withSchedule_V : (s.withSchedule ops).V = s.V := rfl
@[simp] theorem withSchedule_I : (s.withSchedule ops).I = s.I := rfl
@[simp] theorem withSchedule_pc : (s.withSchedule ops).pc = s.pc := rfl
@[simp] theorem withSchedule_stack : (s.withSchedule ops).stack = s.stack := rfl
@[simp] theorem withSchedule_sp : (s.withSchedule ops).sp = s.sp := rfl
@[simp] theorem withSchedule_DT : (s.withSchedule ops).DT = s.DT := rfl
@[simp] theorem withSchedule_ST : (s.withSchedule ops).ST = s.ST := rfl
@[simp] theorem withSchedule_disp : (s.withSchedule ops).disp = s.disp := rfl
@[simp] theorem withSchedule_kwt : (s.withSchedule ops).kwt = s.kwt := rfl
@[simp] theorem withSchedule_halt : (s.withSchedule ops).halt = s.halt := rfl
@[simp] theorem withSchedule_wlog : (s.withSchedule ops).wlog = s.wlog := rfl
@[simp] theorem withSchedule_tacc : (s.withSchedule ops).tacc = s.tacc := rfl
@[simp] theorem withSchedule_toneStops : (s.withSchedule ops).toneStops = s.toneStops := rfl
@[simp] theorem withSchedule_loadOk : (s.withSchedule ops).loadOk = s.loadOk := rfl
@[simp] theorem withSchedule_params : (s.withSchedule ops).params = s.params := rfl
@[simp] theorem withSchedule_inputs : (s.withSchedule ops).inputs = s.inputs := rfl
@[simp] theorem withSchedule_schedule : (s.withSchedule ops).schedule = ops := rfl
@[simp] theorem withSchedule_loadOpen : (s.withSchedule ops).loadOpen = s.loadOpen := rfl

end withSchedule

/-! ### The stack operations, which have two cases -/

@[simp] theorem pushPc_mem (s : State) (A : Word) : (s.pushPc A).mem = s.mem := by
  unfold State.pushPc; split <;> rfl
@[simp] theorem pushPc_V (s : State) (A : Word) : (s.pushPc A).V = s.V := by
  unfold State.pushPc; split <;> rfl
@[simp] theorem pushPc_I (s : State) (A : Word) : (s.pushPc A).I = s.I := by
  unfold State.pushPc; split <;> rfl
@[simp] theorem pushPc_pc (s : State) (A : Word) : (s.pushPc A).pc = s.pc := by
  unfold State.pushPc; split <;> rfl
@[simp] theorem pushPc_DT (s : State) (A : Word) : (s.pushPc A).DT = s.DT := by
  unfold State.pushPc; split <;> rfl
@[simp] theorem pushPc_ST (s : State) (A : Word) : (s.pushPc A).ST = s.ST := by
  unfold State.pushPc; split <;> rfl
@[simp] theorem pushPc_disp (s : State) (A : Word) : (s.pushPc A).disp = s.disp := by
  unfold State.pushPc; split <;> rfl
@[simp] theorem pushPc_kwt (s : State) (A : Word) : (s.pushPc A).kwt = s.kwt := by
  unfold State.pushPc; split <;> rfl
@[simp] theorem pushPc_halt (s : State) (A : Word) : (s.pushPc A).halt = s.halt := by
  unfold State.pushPc; split <;> rfl
@[simp] theorem pushPc_tacc (s : State) (A : Word) : (s.pushPc A).tacc = s.tacc := by
  unfold State.pushPc; split <;> rfl
@[simp] theorem pushPc_toneStops (s : State) (A : Word) : (s.pushPc A).toneStops = s.toneStops := by
  unfold State.pushPc; split <;> rfl
@[simp] theorem pushPc_loadOk (s : State) (A : Word) : (s.pushPc A).loadOk = s.loadOk := by
  unfold State.pushPc; split <;> rfl
@[simp] theorem pushPc_params (s : State) (A : Word) : (s.pushPc A).params = s.params := by
  unfold State.pushPc; split <;> rfl
@[simp] theorem pushPc_inputs (s : State) (A : Word) : (s.pushPc A).inputs = s.inputs := by
  unfold State.pushPc; split <;> rfl
@[simp] theorem pushPc_schedule (s : State) (A : Word) : (s.pushPc A).schedule = s.schedule := by
  unfold State.pushPc; split <;> rfl
@[simp] theorem pushPc_loadOpen (s : State) (A : Word) : (s.pushPc A).loadOpen = s.loadOpen := by
  unfold State.pushPc; split <;> rfl

@[simp] theorem popPc_mem (s : State) (A : Word) : (s.popPc A).mem = s.mem := by
  unfold State.popPc; split <;> rfl
@[simp] theorem popPc_V (s : State) (A : Word) : (s.popPc A).V = s.V := by
  unfold State.popPc; split <;> rfl
@[simp] theorem popPc_I (s : State) (A : Word) : (s.popPc A).I = s.I := by
  unfold State.popPc; split <;> rfl
@[simp] theorem popPc_stack (s : State) (A : Word) : (s.popPc A).stack = s.stack := by
  unfold State.popPc; split <;> rfl
@[simp] theorem popPc_DT (s : State) (A : Word) : (s.popPc A).DT = s.DT := by
  unfold State.popPc; split <;> rfl
@[simp] theorem popPc_ST (s : State) (A : Word) : (s.popPc A).ST = s.ST := by
  unfold State.popPc; split <;> rfl
@[simp] theorem popPc_disp (s : State) (A : Word) : (s.popPc A).disp = s.disp := by
  unfold State.popPc; split <;> rfl
@[simp] theorem popPc_kwt (s : State) (A : Word) : (s.popPc A).kwt = s.kwt := by
  unfold State.popPc; split <;> rfl
@[simp] theorem popPc_halt (s : State) (A : Word) : (s.popPc A).halt = s.halt := by
  unfold State.popPc; split <;> rfl
@[simp] theorem popPc_tacc (s : State) (A : Word) : (s.popPc A).tacc = s.tacc := by
  unfold State.popPc; split <;> rfl
@[simp] theorem popPc_toneStops (s : State) (A : Word) : (s.popPc A).toneStops = s.toneStops := by
  unfold State.popPc; split <;> rfl
@[simp] theorem popPc_loadOk (s : State) (A : Word) : (s.popPc A).loadOk = s.loadOk := by
  unfold State.popPc; split <;> rfl
@[simp] theorem popPc_params (s : State) (A : Word) : (s.popPc A).params = s.params := by
  unfold State.popPc; split <;> rfl
@[simp] theorem popPc_inputs (s : State) (A : Word) : (s.popPc A).inputs = s.inputs := by
  unfold State.popPc; split <;> rfl
@[simp] theorem popPc_schedule (s : State) (A : Word) : (s.popPc A).schedule = s.schedule := by
  unfold State.popPc; split <;> rfl
@[simp] theorem popPc_loadOpen (s : State) (A : Word) : (s.popPc A).loadOpen = s.loadOpen := by
  unfold State.popPc; split <;> rfl

/-- A push with a free slot. -/
theorem pushPc_of_lt (s : State) (A : Word) (h : s.sp.val < 16) :
    s.pushPc A =
      { s with stack := s.stack.set s.sp.val s.pc h, sp := ⟨s.sp.val + 1, Nat.succ_lt_succ h⟩ } := by
  have h' : s.sp.val < Config.stackDepth := h
  simp only [State.pushPc, h', dite_true]

/-- A push with every slot in use. -/
theorem pushPc_of_full (s : State) (A : Word) (h : s.sp.val = 16) : s.pushPc A = s.warn .stackOverflow A := by
  have h' : ¬ s.sp.val < Config.stackDepth := by simp only [Config.stackDepth]; omega
  simp only [State.pushPc, h', dite_false]

/-- A pop with a slot in use. -/
theorem popPc_of_pos (s : State) (A : Word) (h : 0 < s.sp.val) :
    s.popPc A =
      { s with
        pc := s.stack[s.sp.val - 1]'(by have := s.sp.isLt; omega)
        sp := ⟨s.sp.val - 1, by have := s.sp.isLt; omega⟩ } := by
  have h' : ¬ s.sp.val = 0 := by omega
  simp only [State.popPc, h', dite_false]

/-- A pop with no slot in use. -/
theorem popPc_of_zero (s : State) (A : Word) (h : s.sp.val = 0) : s.popPc A = s.warn .stackUnderflow A := by
  simp only [State.popPc, h, dite_true]

/-! ### Reading registers back -/

/-- A register read after a write: the value written, or the old one. -/
theorem getV_setV (s : State) (r q : Reg) (v : Byte) :
    (s.setV r v).getV q = if q = r then v else s.getV q := by
  simp only [State.getV, setV_V, Vector.getElem_set]
  by_cases h : q = r
  · subst h; simp
  · have : ¬ r.val = q.val := fun e => h (Fin.ext e.symm)
    simp [h, this]

@[simp] theorem getV_setV_same (s : State) (r : Reg) (v : Byte) : (s.setV r v).getV r = v := by
  simp [getV_setV]

/-- A register read depends on the register file only. -/
theorem getV_congr {s t : State} (h : s.V = t.V) (r : Reg) : s.getV r = t.getV r := by
  simp only [State.getV, h]

/-- VF is written like any register (R32). -/
theorem getV_setVF (s : State) (q : Reg) (f : Byte) :
    (s.setVF f).getV q = if q = 15 then f else s.getV q := getV_setV s 15 q f

/-- The other updates leave every register as it was. -/
@[simp] theorem getV_spendRandom (s : State) (q : Reg) : s.spendRandom.getV q = s.getV q := rfl
@[simp] theorem getV_setPc (s : State) (w : Word) (q : Reg) : (s.setPc w).getV q = s.getV q := rfl
@[simp] theorem getV_setI (s : State) (w : Word) (q : Reg) : (s.setI w).getV q = s.getV q := rfl
@[simp] theorem getV_skipIf (s : State) (c : Bool) (q : Reg) : (s.skipIf c).getV q = s.getV q := rfl
@[simp] theorem getV_setST (s : State) (v : Byte) (q : Reg) : (s.setST v).getV q = s.getV q := rfl
@[simp] theorem getV_withSchedule (s : State) (ops : List DriverOp) (q : Reg) : (s.withSchedule ops).getV q = s.getV q := rfl
@[simp] theorem getV_endStep (s : State) (q : Reg) : s.endStep.getV q = s.getV q := rfl
@[simp] theorem getV_advance (s : State) (q : Reg) : s.advance.getV q = s.getV q := rfl

/-- Two register files with the same reads are equal. -/
theorem V_ext {s t : State} (h : ∀ r : Reg, s.getV r = t.getV r) : s.V = t.V := by
  apply Vector.ext
  intro i hi
  exact h ⟨i, hi⟩

end Sys2Proof.Machine
end

