-- ==== Sys2Proof/Laws/Step.lean ====
section
/-! SUPPORT. The laws of the step: what an access through I, a key skip, the scan of the keys, the fetch and the
clamp do, each said once, and what an instruction may do to the halted state and to memory. -/

namespace Sys2Proof.Machine

/-- Two advances are one of four bytes: a taken skip (R174). -/
theorem add_two_two (w : Word) : w + 2 + 2 = w + 4 := by rw [BitVec.add_assoc]; rfl

/-- A 12-bit address keeps its number. -/
@[simp] theorem toNat_zextAddr (a : Addr) : (zextAddr a).toNat = a.toNat := by
  have := a.isLt
  simp only [zextAddr, BitVec.toNat_setWidth]
  omega

/-- A byte keeps its number. -/
@[simp] theorem toNat_zextByte (b : Byte) : (zextByte b).toNat = b.toNat := by
  have := b.isLt
  simp only [zextByte, BitVec.toNat_setWidth]
  omega

/-! ### Accesses through I, key skips -/

/-- An access inside memory happens. -/
theorem accessThroughI_inside (i : Instr) (count : Nat) (s effect : State)
    (h : count = 0 ∨ s.baseAddr + count ≤ Config.memSize) : accessThroughI i count s effect = .next effect := by
  simp only [accessThroughI, firstOutOfRange_eq, if_pos h]

/-- An access past memory raises the fault. -/
theorem accessThroughI_past (i : Instr) (count : Nat) (s effect : State) (h0 : 0 < count)
    (h : Config.memSize < s.baseAddr + count) :
    accessThroughI i count s effect =
      .next (raiseFault .memBounds (some (instrBytes i)) (some (max s.baseAddr Config.memSize)) s) := by
  have hn : ¬ (count = 0 ∨ s.baseAddr + count ≤ Config.memSize) := by omega
  simp only [accessThroughI, firstOutOfRange_eq, if_neg hn]

/-- What an access through I can do. -/
theorem accessThroughI_cases {i : Instr} {count : Nat} {s effect t : State}
    (h : accessThroughI i count s effect = .next t) :
    (count = 0 ∨ s.baseAddr + count ≤ Config.memSize) ∧ t = effect ∨
    0 < count ∧ Config.memSize < s.baseAddr + count ∧
      t = raiseFault .memBounds (some (instrBytes i)) (some (max s.baseAddr Config.memSize)) s := by
  by_cases hb : count = 0 ∨ s.baseAddr + count ≤ Config.memSize
  · rw [accessThroughI_inside i count s effect hb] at h
    cases h
    exact .inl ⟨hb, rfl⟩
  · rw [accessThroughI_past i count s effect (by omega) (by omega)] at h
    cases h
    exact .inr ⟨by omega, by omega, rfl⟩

/-- What a key skip can do. -/
theorem skipOnKey_cases {i : Instr} {x : Reg} {wanted : Bool} {s t : State} (h : skipOnKey i x wanted s = .next t) :
    (s.getV x).toNat < 16 ∧ (∃ c, t = s.advance.skipIf c) ∨
    15 < (s.getV x).toNat ∧ t = raiseFault .keyRange (some (instrBytes i)) (some (s.getV x).toNat) s := by
  by_cases hk : (s.getV x).toNat < 16
  · simp only [skipOnKey, keyOf, dif_pos hk] at h
    cases h
    exact .inl ⟨hk, _, rfl⟩
  · simp only [skipOnKey, keyOf, dif_neg hk] at h
    cases h
    exact .inr ⟨by omega, rfl⟩

/-! ### The scan of the keys -/

/-- The scan finds nothing exactly when no key is held. -/
theorem firstHeld_eq_none (s : State) : firstHeld s.heldNow = none ↔ ∀ k : Key, s.held k = false := by
  simp [firstHeld, State.held]

/-- The scan finds the least held key. -/
theorem firstHeld_eq_some (s : State) (k : Key) :
    firstHeld s.heldNow = some k ↔ s.held k = true ∧ ∀ j : Key, j < k → s.held j = false := by
  unfold firstHeld
  rw [List.find?_eq_some_iff_getElem]
  constructor
  · rintro ⟨h1, n, hn, he, hj⟩
    refine ⟨h1, fun j hjk => ?_⟩
    have hk : k.val = n := by rw [← he]; simp
    have hlt : j.val < k.val := hjk
    simpa [State.held] using hj j.val (by omega)
  · rintro ⟨h1, h2⟩
    refine ⟨h1, k.val, by simp, by simp, fun j hj => ?_⟩
    simpa [State.held] using h2 ⟨j, by omega⟩ hj

/-- The key-wait phase with no wait pending. -/
theorem resolveKeyWait_of_none {s : State} (h : s.kwt = none) : resolveKeyWait s = some s := by
  simp only [resolveKeyWait, h]

/-! ### The driver and the dispatcher -/

/-- With nothing scheduled the driver calls `step()`. -/
theorem step_of_empty {s : State} (h : s.schedule = []) : step s = dispatcherStep s := by
  simp only [step, driverStep, h]

/-- With an operation scheduled the driver calls it. -/
theorem step_of_cons {s : State} {op : DriverOp} {rest : List DriverOp} (h : s.schedule = op :: rest) :
    step s = runOp op (s.withSchedule rest) := by
  simp only [step, driverStep, h]

/-- A running state has its key-wait resolved first. -/
theorem dispatcherStep_of_running {s : State} (h : s.halt = none) :
    dispatcherStep s = match resolveKeyWait s with
      | none => .next s.endStep
      | some s1 => stepInstruction s1 := by
  unfold dispatcherStep
  rw [h]
  rfl

/-- A state that runs fetches. -/
theorem step_of_runs {s : State} (h : s.runs = true) : step s = stepInstruction s := by
  simp only [State.runs, Bool.and_eq_true, Option.isNone_iff_eq_none, List.isEmpty_iff] at h
  obtain ⟨⟨h1, h2⟩, h3⟩ := h
  rw [step_of_empty h3, dispatcherStep_of_running h1, resolveKeyWait_of_none h2]

/-- A fetch inside the program range gives the two bytes. -/
theorem fetch_inside {s : State} (h : Config.loadOffset ≤ s.pc.toNat) (h1 : s.pc.toNat + 1 < Config.memSize) :
    fetch s = .bytes (s.mem.read s.pc.toNat) (s.mem.read (s.pc.toNat + 1)) := by
  have h2 : ¬ s.pc.toNat < Config.loadOffset := by omega
  have h3 : 2 = 0 ∨ s.pc.toNat + 2 ≤ Config.memSize := by omega
  simp only [fetch, if_neg h2, firstOutOfRange_eq, if_pos h3]

/-- The clamp leaves the halted state as it is. -/
@[simp] theorem clampPc_halt (A : Word) (s : State) : (s.clampPc A).halt = s.halt := by
  unfold State.clampPc
  split <;> rfl

/-- The clamp leaves memory as it is. -/
@[simp] theorem clampPc_mem (A : Word) (s : State) : (s.clampPc A).mem = s.mem := by
  unfold State.clampPc
  split <;> rfl

/-- The clamp leaves the parameter as it is. -/
@[simp] theorem clampPc_params (A : Word) (s : State) : (s.clampPc A).params = s.params := by
  unfold State.clampPc
  split <;> rfl

/-- The clamp adds to the warning log or leaves it. -/
theorem clampPc_wlog (A : Word) (s : State) : s.wlog <+: (s.clampPc A).wlog := by
  unfold State.clampPc
  split
  · exact ⟨_, rfl⟩
  · exact List.prefix_refl _

/-- After the clamp the program counter is below the boundary (R171). -/
theorem clampPc_below (A : Word) (s : State) (h : 2 ≤ s.params.stackRegionOffset) :
    (s.clampPc A).pc.toNat < s.params.stackRegionOffset := by
  unfold State.clampPc
  split
  · simp only [setPc_pc, BitVec.toNat_ofNat]
    have := Nat.mod_le (s.params.stackRegionOffset - 2) (2 ^ 16)
    omega
  · omega

/-! ### What an instruction may do -/

/-- An instruction leaves the halted state as it is, or takes a fault and does nothing else. -/
theorem exec_halt_cases {i : Instr} {s t : State} (h : exec i s = .next t) :
    t.halt = s.halt ∨ ∃ code bytes addr, t = raiseFault code bytes addr s := by
  cases i
  case drw | ldB | ldMemVx | ldVxMem =>
    obtain ⟨_, rfl⟩ | ⟨_, _, rfl⟩ := accessThroughI_cases h
    · exact .inl rfl
    · exact .inr ⟨_, _, _, rfl⟩
  case skp | sknp =>
    obtain ⟨_, _, rfl⟩ | ⟨_, rfl⟩ := skipOnKey_cases h
    · exact .inl rfl
    · exact .inr ⟨_, _, _, rfl⟩
  case call | ret => cases h; simp
  all_goals cases h; exact .inl rfl

/-- An instruction leaves memory as it is, or writes consecutive bytes inside memory. -/
theorem exec_mem_cases {i : Instr} {s t : State} (h : exec i s = .next t) :
    t.mem = s.mem ∨ ∃ bs : List Byte, s.baseAddr + bs.length ≤ Config.memSize ∧
      t.mem = s.mem.writeBytes s.baseAddr bs := by
  cases i
  case drw | ldVxMem =>
    obtain ⟨_, rfl⟩ | ⟨_, _, rfl⟩ := accessThroughI_cases h <;> exact .inl rfl
  case ldB x =>
    obtain ⟨hb, rfl⟩ | ⟨_, _, rfl⟩ := accessThroughI_cases h
    · refine .inr ⟨_, ?_, rfl⟩
      have : (bcdDigits (s.getV x)).length = 3 := rfl
      omega
    · exact .inl rfl
  case ldMemVx x =>
    obtain ⟨hb, rfl⟩ | ⟨_, _, rfl⟩ := accessThroughI_cases h
    · refine .inr ⟨_, ?_, rfl⟩
      have : (s.regsUpTo x).length ≤ regCount x := by simp [State.regsUpTo]
      have : 0 < regCount x := Nat.succ_pos _
      omega
    · exact .inl rfl
  case skp | sknp =>
    obtain ⟨_, _, rfl⟩ | ⟨_, rfl⟩ := skipOnKey_cases h <;> exact .inl rfl
  case call | ret => cases h; simp
  all_goals cases h; exact .inl rfl

/-- No instruction changes the parameter. -/
theorem exec_params {i : Instr} {s t : State} (h : exec i s = .next t) : t.params = s.params := by
  cases i
  case drw | ldB | ldMemVx | ldVxMem =>
    obtain ⟨_, rfl⟩ | ⟨_, _, rfl⟩ := accessThroughI_cases h <;> rfl
  case skp | sknp =>
    obtain ⟨_, _, rfl⟩ | ⟨_, rfl⟩ := skipOnKey_cases h <;> rfl
  case call | ret => cases h; simp
  all_goals cases h; rfl

/-- An instruction adds to the warning log or leaves it. -/
theorem exec_wlog {i : Instr} {s t : State} (h : exec i s = .next t) : s.wlog <+: t.wlog := by
  cases i
  case drw | ldB | ldMemVx | ldVxMem =>
    obtain ⟨_, rfl⟩ | ⟨_, _, rfl⟩ := accessThroughI_cases h <;> exact List.prefix_refl _
  case skp | sknp =>
    obtain ⟨_, _, rfl⟩ | ⟨_, rfl⟩ := skipOnKey_cases h <;> exact List.prefix_refl _
  case call =>
    cases h
    simp only [setPc_wlog, State.pushPc]
    split
    · exact List.prefix_refl _
    · exact ⟨_, rfl⟩
  case ret =>
    cases h
    simp only [State.popPc]
    split
    · exact ⟨_, rfl⟩
    · exact List.prefix_refl _
  all_goals cases h; exact List.prefix_refl _

/-- What `step()` of the core can do: nothing when halted; hold, or run one instruction with its key-wait, if any,
resolved, which ends in a fault outside the execute phase or in the retired instruction. -/
theorem dispatcherStep_cases {s t : State} (h : dispatcherStep s = .next t) :
    (s.halt.isSome = true ∧ t = s) ∨
    (s.halt = none ∧ (t = s.endStep ∨
      ∃ u, (u = s ∨ ∃ r k, u = { s.setV r (keyByte k) with kwt := none }) ∧
        ((∃ code bytes addr, t = (raiseFault code bytes addr u).endStep) ∨
          ∃ i v, exec i u = .next v ∧ t = retire u.pc v))) := by
  unfold dispatcherStep at h
  split at h
  · cases h
    exact .inl ⟨‹_›, rfl⟩
  · rename_i hh
    refine .inr ⟨by simpa using hh, ?_⟩
    split at h
    · cases h
      exact .inl rfl
    · rename_i u hu
      refine .inr ⟨u, ?_, ?_⟩
      · unfold resolveKeyWait at hu
        split at hu
        · cases hu
          exact .inl rfl
        · split at hu
          · cases hu
          · cases hu
            exact .inr ⟨_, _, rfl⟩
      · unfold stepInstruction at h
        split at h
        · cases h
          exact .inl ⟨_, _, _, rfl⟩
        · split at h
          · cases h
            exact .inl ⟨_, _, _, rfl⟩
          · rename_i i _
            cases he : exec i u with
            | next v => rw [he] at h; cases h; exact .inr ⟨i, v, he, rfl⟩
            | fault f => cases f
            | refused f => rw [he] at h; cases h

/-! ### The Timer Clock and the load -/

/-- Ticks change the timers and the count of TONE_STOP events only. -/
theorem ticks_frame (n : Nat) (s : State) : State.ticks n s =
    { s with
      DT := (State.ticks n s).DT
      ST := (State.ticks n s).ST
      toneStops := (State.ticks n s).toneStops } := by
  induction n generalizing s with
  | zero => rfl
  | succ n ih =>
    have h : s.tick = { s with DT := s.tick.DT, ST := s.tick.ST, toneStops := s.tick.toneStops } := by
      unfold State.tick
      dsimp only
      split <;> split <;> rfl
    rw [State.ticks, ih, h]

/-- The bounds of a legal parameter (R14). -/
theorem Params.bounds {p : Params} (h : p.legal = true) :
    Config.loadOffset + 2 ≤ p.stackRegionOffset ∧ p.stackRegionOffset ≤ Config.memSize := by
  simp only [Params.legal, Bool.and_eq_true, decide_eq_true_eq] at h
  exact ⟨h.1.2, h.2⟩

/-- An accepted program fits in memory. -/
theorem load_fits {s : State} {bytes : List Byte} (h : s.params.legal = true)
    (hb : ¬ Params.maxProgram s.params < bytes.length) : Config.loadOffset + bytes.length ≤ Config.memSize := by
  have h1 := Params.bounds h
  have h2 : bytes.length ≤ s.params.stackRegionOffset - Config.loadOffset := Nat.not_lt.1 hb
  omega

end Sys2Proof.Machine
end

