-- ==== Sys2Proof/Laws/Run.lean ====
section
/-! SUPPORT. The laws of the driver's operations and of runs: what an instruction does is independent of what the driver
calls later, a run goes on one operation at a time and ends at a fault, and only a call of `step()` can fault. -/

namespace Sys2Proof.Machine

/-! ### The schedule -/

/-- An instruction does the same whatever is scheduled. -/
theorem exec_withSchedule (i : Instr) (s : State) (ops : List DriverOp) :
    exec i (s.withSchedule ops) = mapNext (fun t => t.withSchedule ops) (exec i s) := by
  cases i
  case drw | ldB | ldMemVx | ldVxMem =>
    simp only [exec, execDrw, execLdB, execLdMemVx, execLdVxMem, accessThroughI, State.baseAddr, withSchedule_I]
    split <;> rfl
  case skp x | sknp x =>
    simp only [exec, execSkp, execSknp, skipOnKey, getV_withSchedule]
    split <;> rfl
  case ret =>
    simp only [exec, execRet, mapNext]
    by_cases h : s.sp.val = 0
    · rw [popPc_of_zero _ _ (by exact h), popPc_of_zero _ _ (by exact h)]
      rfl
    · have hp : 0 < s.sp.val := Nat.pos_of_ne_zero h
      rw [popPc_of_pos _ _ (by exact hp), popPc_of_pos _ _ (by exact hp)]
      rfl
  case call =>
    simp only [exec, execCall, mapNext]
    by_cases h : s.sp.val < 16
    · rw [pushPc_of_lt _ _ (by exact h), pushPc_of_lt _ _ (by exact h)]
      rfl
    · have hf : s.sp.val = 16 := by have := s.sp.isLt; omega
      rw [pushPc_of_full _ _ (by exact hf), pushPc_of_full _ _ (by exact hf)]
      rfl
  all_goals rfl

/-- The end of a step does the same whatever is scheduled. -/
theorem retire_withSchedule (A : Word) (s : State) (ops : List DriverOp) :
    retire A (s.withSchedule ops) = (retire A s).withSchedule ops := by
  unfold retire State.clampPc
  by_cases h : s.halt.isSome = true
  · rw [if_pos h, if_pos (by exact h)]
    rfl
  · rw [if_neg h, if_neg (by exact h)]
    by_cases h2 : s.params.stackRegionOffset ≤ s.pc.toNat
    · rw [if_pos h2, if_pos (by exact h2)]
      rfl
    · rw [if_neg h2, if_neg (by exact h2)]
      rfl

/-- The key-wait phase does the same whatever is scheduled. -/
theorem resolveKeyWait_withSchedule (s : State) (ops : List DriverOp) :
    resolveKeyWait (s.withSchedule ops) = (resolveKeyWait s).map (fun t => t.withSchedule ops) := by
  have h : (s.withSchedule ops).heldNow = s.heldNow := rfl
  unfold resolveKeyWait
  rw [withSchedule_kwt, h]
  split
  · rfl
  · split <;> rfl

/-- One instruction, fetch and decode with it, does the same whatever is scheduled. -/
theorem stepInstruction_withSchedule (s : State) (ops : List DriverOp) :
    stepInstruction (s.withSchedule ops) = mapNext (fun t => t.withSchedule ops) (stepInstruction s) := by
  have h : fetch (s.withSchedule ops) = fetch s := rfl
  unfold stepInstruction
  rw [h]
  split
  · rfl
  · split
    · rfl
    · rename_i i _
      rw [exec_withSchedule]
      cases exec i s with
      | next t => simp only [mapNext, withSchedule_pc, retire_withSchedule]
      | fault f => rfl
      | refused f => rfl

/-! ### Runs -/

/-- With nothing scheduled the next operation is `step()`. -/
theorem nextOp_of_empty {s : State} (h : s.schedule = []) : s.nextOp = .step := by simp [State.nextOp, h]

/-- With an operation scheduled it is the next one. -/
theorem nextOp_of_cons {s : State} {op : DriverOp} {rest : List DriverOp} (h : s.schedule = op :: rest) :
    s.nextOp = op := by simp [State.nextOp, h]

/-- Only a call of `step()` brings a running core to the halted state. -/
theorem nextOp_of_halts {s t : State} (h : s.halt = none) (hs : step s = .next t) (ht : t.halt ≠ none) :
    s.nextOp = .step := by
  cases hl : s.schedule with
  | nil => exact nextOp_of_empty hl
  | cons op rest =>
    rw [nextOp_of_cons hl]
    rw [step_of_cons hl] at hs
    cases op with
    | step => rfl
    | idle => cases hs; exact absurd h ht
    | reset => cases hs; exact absurd rfl ht
    | load bytes =>
      simp only [runOp] at hs
      split at hs
      · cases hs
        refine absurd ?_ ht
        unfold loadProgram
        split <;> exact h
      · cases hs
    | tick ms =>
      simp only [runOp] at hs
      cases hs
      refine absurd ?_ ht
      rw [tickTimers, ticks_frame]
      exact h

/-- A run does not go on from a halted core. -/
theorem RunPoint.next_of_halted {p : RunPoint} (h : p.state.halt ≠ none) : p.next = none := by
  have : p.state.halt.isSome = true := Option.isSome_iff_ne_none.2 h
  simp [RunPoint.next, this]

/-- What one more operation of a run can do. -/
theorem RunPoint.next_cases {p q : RunPoint} (h : p.next = some q) :
    p.state.halt = none ∧ p.state.nextOp ≠ .reset ∧ step p.state = .next q.state ∧
      q.steps = if p.state.nextOp = .step then p.steps + 1 else p.steps := by
  unfold RunPoint.next at h
  split at h
  · cases h
  · rename_i hc
    simp only [Bool.or_eq_true, decide_eq_true_eq, not_or, Bool.not_eq_true, Option.isSome_eq_false_iff,
      Option.isNone_iff_eq_none] at hc
    split at h
    · rename_i t ht
      cases h
      exact ⟨hc.1, hc.2, ht, rfl⟩
    · cases h
    · cases h

/-- A run of `m + n` operations is one of `m` and then one of `n`. -/
theorem RunPoint.after_add (m n : Nat) (p : RunPoint) :
    RunPoint.after (m + n) p = (RunPoint.after m p).bind (RunPoint.after n) := by
  induction m generalizing p with
  | zero => simp [RunPoint.after]
  | succ m ih =>
    rw [Nat.succ_add, RunPoint.after, RunPoint.after, Option.bind_assoc]
    congr 1
    funext q
    exact ih q

/-- The count of `step()` calls only grows along a run. -/
theorem RunPoint.steps_le {n : Nat} {p q : RunPoint} (h : RunPoint.after n p = some q) : p.steps ≤ q.steps := by
  induction n generalizing p with
  | zero => cases h; exact Nat.le_refl _
  | succ n ih =>
    rw [RunPoint.after, Option.bind_eq_some_iff] at h
    obtain ⟨r, hr, h⟩ := h
    have h1 := (RunPoint.next_cases hr).2.2.2
    have h2 := ih h
    split at h1 <;> omega

end Sys2Proof.Machine
end

