-- ==== Sys2Proof/Tests/Slice0.lean ====
section
/-! SUPPORT. The model's own tests: the refusals of the checks, one word per instruction written out from R125's
patterns, and single steps whose expected results are the vectors of spec/95_test_vectors.md (the vector's id stands
in each comment; the vectors are the spec's, computed from its rules, not run on this model). -/

namespace Sys2Proof.Tests

open Sys2Proof.Machine

/-! ### WellFormed: an ill-formed term for each check -/

theorem test_kk_disagrees : Fields.kkAgrees ⟨1, 2, 3, 4, 0x35, 0x234⟩ = false := by decide
theorem test_nnn_disagrees : Fields.nnnAgrees ⟨1, 2, 3, 4, 0x34, 0x235⟩ = false := by decide
theorem test_fields_ill_formed : Fields.wellFormed ⟨1, 2, 3, 4, 0x34, 0x334⟩ = false := by decide
theorem test_fields_well_formed : Fields.wellFormed (fieldsOf 0x1234) = true := by decide
theorem test_group0_refused : (fieldsOf 0x0123).legal = false := by decide
theorem test_group8_refused : (fieldsOf 0x8008).legal = false := by decide
theorem test_groupE_refused : (fieldsOf 0xE000).legal = false := by decide
theorem test_groupF_refused : (fieldsOf 0xF0FF).legal = false := by decide
theorem test_params_odd : Params.legal ⟨0xEA1⟩ = false := by decide
theorem test_params_low : Params.legal ⟨0x200⟩ = false := by decide
theorem test_params_high : Params.legal ⟨0x1002⟩ = false := by decide
theorem test_params_default : defaultParams.legal = true := by decide
theorem test_memory_not_rising : Memory.wf [(0x301, 1), (0x300, 1)] = false := by decide
theorem test_memory_lists_reset_byte : Memory.wf [(0x000, 0xF0)] = false := by decide
theorem test_memory_out_of_range : Memory.wf [(0x1000, 1)] = false := by decide

/-! ### Decoding: a word of every instruction, from R125 and the table of L2.1 -/

theorem test_decode_cls : decode 0x00E0 = .ok .cls := by decide
theorem test_decode_ret : decode 0x00EE = .ok .ret := by decide
theorem test_decode_jp : decode 0x1208 = .ok (.jp 0x208) := by decide
theorem test_decode_call : decode 0x2ABC = .ok (.call 0xABC) := by decide
theorem test_decode_seImm : decode 0x3310 = .ok (.seImm 3 0x10) := by decide
theorem test_decode_sneImm : decode 0x4310 = .ok (.sneImm 3 0x10) := by decide
theorem test_decode_seReg : decode 0x5123 = .ok (.seReg 1 2 3) := by decide
theorem test_decode_ldImm : decode 0x6A7B = .ok (.ldImm 0xA 0x7B) := by decide
theorem test_decode_addImm : decode 0x7203 = .ok (.addImm 2 3) := by decide
theorem test_decode_ldReg : decode 0x8120 = .ok (.ldReg 1 2) := by decide
theorem test_decode_orReg : decode 0x8121 = .ok (.orReg 1 2) := by decide
theorem test_decode_andReg : decode 0x8122 = .ok (.andReg 1 2) := by decide
theorem test_decode_xorReg : decode 0x8123 = .ok (.xorReg 1 2) := by decide
theorem test_decode_addReg : decode 0x8014 = .ok (.addReg 0 1) := by decide
theorem test_decode_sub : decode 0x8125 = .ok (.sub 1 2) := by decide
theorem test_decode_shr : decode 0x8126 = .ok (.shr 1 2) := by decide
theorem test_decode_subn : decode 0x8127 = .ok (.subn 1 2) := by decide
theorem test_decode_shl : decode 0x812E = .ok (.shl 1 2) := by decide
theorem test_decode_sneReg : decode 0x9123 = .ok (.sneReg 1 2 3) := by decide
theorem test_decode_ldI : decode 0xA250 = .ok (.ldI 0x250) := by decide
theorem test_decode_jpV0 : decode 0xB300 = .ok (.jpV0 0x300) := by decide
theorem test_decode_rnd : decode 0xC30F = .ok (.rnd 3 0x0F) := by decide
theorem test_decode_drw : decode 0xD125 = .ok (.drw 1 2 5) := by decide
theorem test_decode_skp : decode 0xE19E = .ok (.skp 1) := by decide
theorem test_decode_sknp : decode 0xE1A1 = .ok (.sknp 1) := by decide
theorem test_decode_ldVxDt : decode 0xF307 = .ok (.ldVxDt 3) := by decide
theorem test_decode_ldVxK : decode 0xF30A = .ok (.ldVxK 3) := by decide
theorem test_decode_ldDtVx : decode 0xF215 = .ok (.ldDtVx 2) := by decide
theorem test_decode_ldStVx : decode 0xF218 = .ok (.ldStVx 2) := by decide
theorem test_decode_addI : decode 0xF21E = .ok (.addI 2) := by decide
theorem test_decode_ldF : decode 0xF429 = .ok (.ldF 4) := by decide
theorem test_decode_ldB : decode 0xF533 = .ok (.ldB 5) := by decide
theorem test_decode_ldMemVx : decode 0xF255 = .ok (.ldMemVx 2) := by decide
theorem test_decode_ldVxMem : decode 0xF265 = .ok (.ldVxMem 2) := by decide
theorem test_decode_zero : decode 0x0000 = .error .group0 := by decide
theorem test_decode_truncated : decodeBytes [0x12] = .error .truncated := by decide
theorem test_decode_high_byte_first : decodeBytes [0x12, 0x08, 0xFF] = .ok (.jp 0x208, [0xFF]) := by decide
theorem test_decode_table_word : decodeTableWord 16 0xD125 = some (.drw 1 2 5) := by decide

/-! ### Single steps -/

/-- The reset state with registers set. -/
def withRegs (rs : List (Reg × Byte)) (s : State) : State := rs.foldl (fun t p => t.setV p.1 p.2) s

/-- The reset state with memory bytes set from an address. -/
def withBytes (a : Nat) (bs : List Byte) (s : State) : State := { s with mem := s.mem.writeBytes a bs }

/-- One step of word `w` fetched next from `s` ends in a next state that passes the check. -/
def stepsTo (s : State) (w : Nat) (check : State → Bool) : Bool :=
  match step (s.withFetchWord 16 w) with
  | .next t => check t
  | .fault _ => false
  | .refused _ => false

/-- One operation from `s` ends in a next state that passes the check. -/
def opTo (s : State) (check : State → Bool) : Bool :=
  match step s with
  | .next t => check t
  | .fault _ => false
  | .refused _ => false

/-- Keys held in the coming steps. -/
def withKeys (ks : List KeySnapshot) (s : State) : State := { s with inputs := { s.inputs with keys := ks } }

-- S9
theorem test_reset_font : (List.range 5).map (Memory.read State.reset.mem) = [0xF0, 0x90, 0x90, 0x90, 0xF0] := by decide
theorem test_reset_inv : State.reset.mem.wf = true ∧ State.reset.params.legal = true := by decide
-- C2
theorem test_jp_below_load_offset :
    stepsTo State.reset 0x11FE (fun t => t.pc == 0x1FE
      && opTo t (fun u => u.halt == some ⟨.reservedFetch, 0x1FE, none, none⟩ && u.pc == 0x1FE)) = true := by decide
-- C3
theorem test_jp_clamped :
    stepsTo State.reset 0x1EA0 (fun t => t.pc == 0xE9E && t.wlog == [⟨.pcBoundary, 0x200⟩]) = true := by decide
-- C4
theorem test_skip_clamped :
    stepsTo { State.reset with pc := 0xE9C } 0x3000
      (fun t => t.pc == 0xE9E && t.wlog == [⟨.pcBoundary, 0xE9C⟩]) = true := by decide
-- C6
theorem test_fetch_past_memory :
    opTo { State.reset with pc := 0xFFF, params := ⟨0x1000⟩ }
      (fun t => t.halt == some ⟨.memBounds, 0xFFF, none, some 0x1000⟩ && t.pc == 0xFFF) = true := by decide
-- S8
theorem test_unimplemented :
    stepsTo State.reset 0xFFFF
      (fun t => t.halt == some ⟨.unimplemented, 0x200, some (0xFF, 0xFF), none⟩ && t.pc == 0x200) = true := by decide
-- C8, step 3
theorem test_key_wait_kept_on_fault :
    opTo (withKeys [0x0280] { withBytes 0x202 [0xFF, 0xFF] State.reset with pc := 0x202, kwt := some 3 })
      (fun t => t.getV 3 == 7 && t.kwt == none
        && t.halt == some ⟨.unimplemented, 0x202, some (0xFF, 0xFF), none⟩ && t.pc == 0x202) = true := by decide
-- S6
theorem test_key_wait_resolves_and_executes :
    opTo (withKeys [0x0004] { withBytes 0x202 [0x60, 0x11] State.reset with pc := 0x202, kwt := some 3 })
      (fun t => t.getV 3 == 2 && t.kwt == none && t.getV 0 == 0x11 && t.pc == 0x204) = true := by decide
theorem test_key_wait_holds :
    opTo (withKeys [0] { State.reset with pc := 0x202, kwt := some 3 })
      (fun t => t.getV 3 == 0 && t.kwt == some 3 && t.pc == 0x202 && t.halt == none) = true := by decide

-- S3
theorem test_cls :
    stepsTo { State.reset with disp := (State.reset.disp.toggle 1 1).toggle 31 63 } 0x00E0
      (fun t => t.disp == State.reset.disp && t.pc == 0x202) = true := by decide
-- D1
theorem test_drw_glyph :
    stepsTo State.reset 0xD015 (fun t =>
      (List.finRange 8).map (fun c => (t.disp.cell 0 (c.castLE (by decide)), t.disp.cell 1 (c.castLE (by decide))))
        == [(true, true), (true, false), (true, false), (true, true),
            (false, false), (false, false), (false, false), (false, false)]
      && t.getV 15 == 0) = true := by decide
-- S5
theorem test_drw_collision_in_last_row :
    stepsTo { withBytes 0x300 [0x80, 0x00, 0x80] State.reset with
        I := 0x300, disp := State.reset.disp.toggle 2 0 } 0xD013
      (fun t => t.disp.cell 0 0 && !t.disp.cell 2 0 && t.getV 15 == 1) = true := by decide
-- D8
theorem test_drw_out_of_range :
    stepsTo (withRegs [(15, 7)] { State.reset with I := 0xFFE }) 0xD013
      (fun t => t.halt == some ⟨.memBounds, 0x200, some (0xD0, 0x13), some 0x1000⟩
        && t.getV 15 == 7 && t.pc == 0x200) = true := by decide
-- D5
theorem test_plot_wraps :
    (plotRow (Display.clear, false) 200 100 0x80).1 = Display.clear.toggle 4 8 := by decide
-- D3
theorem test_plot_wraps_at_right_edge :
    let d := (plotRow (Display.clear, false) 60 5 0xFF).1
    d.cell 5 63 = true ∧ d.cell 5 0 = true ∧ d.cell 5 3 = true ∧ d.cell 5 4 = false := by decide

-- F1, F2
theorem test_ret :
    stepsTo { State.reset with pc := 0x300, sp := 1, stack := State.reset.stack.set 0 0x204 } 0x00EE
      (fun t => t.pc == 0x204 && t.sp == 0 && t.stack[0] == 0x204) = true := by decide
theorem test_ret_underflow :
    stepsTo { State.reset with pc := 0x300 } 0x00EE
      (fun t => t.pc == 0x302 && t.sp == 0 && t.wlog == [⟨.stackUnderflow, 0x300⟩]) = true := by decide
-- F4, F6
theorem test_call :
    stepsTo { State.reset with pc := 0x202 } 0x2300
      (fun t => t.pc == 0x300 && t.sp == 1 && t.stack[0] == 0x204) = true := by decide
theorem test_call_overflow_and_clamp :
    stepsTo { State.reset with pc := 0x300, sp := 16 } 0x2EA0
      (fun t => t.pc == 0xE9E && t.sp == 16
        && t.wlog == [⟨.stackOverflow, 0x300⟩, ⟨.pcBoundary, 0x300⟩]) = true := by decide
-- F7, F8
theorem test_seImm_taken : stepsTo (withRegs [(3, 0x10)] State.reset) 0x3310 (fun t => t.pc == 0x204) = true := by decide
theorem test_seImm_not_taken : stepsTo (withRegs [(3, 0x11)] State.reset) 0x3310 (fun t => t.pc == 0x202) = true := by decide
-- F9, F10
theorem test_sneImm_taken : stepsTo (withRegs [(3, 0x11)] State.reset) 0x4310 (fun t => t.pc == 0x204) = true := by decide
theorem test_sneImm_not_taken : stepsTo (withRegs [(3, 0x10)] State.reset) 0x4310 (fun t => t.pc == 0x202) = true := by decide
-- F11
theorem test_seReg : stepsTo (withRegs [(1, 7), (2, 7)] State.reset) 0x5123 (fun t => t.pc == 0x204) = true := by decide
-- F14, F13
theorem test_sneReg : stepsTo (withRegs [(1, 7), (2, 8)] State.reset) 0x9123 (fun t => t.pc == 0x204) = true := by decide
theorem test_sneReg_same : stepsTo (withRegs [(1, 9)] State.reset) 0x9110 (fun t => t.pc == 0x202) = true := by decide
-- F15, F17
theorem test_jpV0 : stepsTo (withRegs [(0, 4)] State.reset) 0xB300 (fun t => t.pc == 0x304) = true := by decide
theorem test_jpV0_clamped :
    stepsTo (withRegs [(0, 0xFF)] State.reset) 0xBFFF
      (fun t => t.pc == 0xE9E && t.wlog == [⟨.pcBoundary, 0x200⟩]) = true := by decide

-- A1, A2, A3
theorem test_ldImm : stepsTo State.reset 0x6005 (fun t => t.getV 0 == 5) = true := by decide
theorem test_addImm_wraps :
    stepsTo (withRegs [(2, 0xFE), (15, 0x55)] State.reset) 0x7203
      (fun t => t.getV 2 == 1 && t.getV 15 == 0x55) = true := by decide
theorem test_addImm_vf : stepsTo (withRegs [(15, 0xFF)] State.reset) 0x7F01 (fun t => t.getV 15 == 0) = true := by decide
-- A4
theorem test_ldReg : stepsTo (withRegs [(1, 0x42)] State.reset) 0x8010 (fun t => t.getV 0 == 0x42) = true := by decide
-- A5, A6, A7
theorem test_orReg :
    stepsTo (withRegs [(0, 0x0F), (1, 0xF0), (15, 0x77)] State.reset) 0x8011
      (fun t => t.getV 0 == 0xFF && t.getV 15 == 0x77) = true := by decide
theorem test_andReg : stepsTo (withRegs [(0, 0x3C), (1, 0x0F)] State.reset) 0x8012 (fun t => t.getV 0 == 0x0C) = true := by decide
theorem test_xorReg : stepsTo (withRegs [(0, 0x3C), (1, 0x0F)] State.reset) 0x8013 (fun t => t.getV 0 == 0x33) = true := by decide
-- A9, A12
theorem test_addReg :
    stepsTo (withRegs [(0, 0xFF), (1, 1)] State.reset) 0x8014 (fun t => t.getV 0 == 0 && t.getV 15 == 1) = true := by decide
theorem test_addReg_into_vf :
    stepsTo (withRegs [(15, 0xFF), (1, 1)] State.reset) 0x8F14 (fun t => t.getV 15 == 1) = true := by decide
-- A16, A18
theorem test_sub :
    stepsTo (withRegs [(0, 3), (1, 5)] State.reset) 0x8015 (fun t => t.getV 0 == 0xFE && t.getV 15 == 0) = true := by decide
theorem test_sub_from_vf :
    stepsTo (withRegs [(15, 1)] State.reset) 0x80F5 (fun t => t.getV 0 == 0xFF && t.getV 15 == 0) = true := by decide
-- A21, A22
theorem test_shr_ignores_y :
    stepsTo (withRegs [(0, 4), (1, 0xFF), (15, 1)] State.reset) 0x8016
      (fun t => t.getV 0 == 2 && t.getV 15 == 0 && t.getV 1 == 0xFF) = true := by decide
theorem test_shr_vf : stepsTo (withRegs [(15, 3)] State.reset) 0x8F06 (fun t => t.getV 15 == 0) = true := by decide
-- A23, A24
theorem test_subn :
    stepsTo (withRegs [(0, 3), (1, 5)] State.reset) 0x8017 (fun t => t.getV 0 == 2 && t.getV 15 == 1) = true := by decide
theorem test_subn_borrow :
    stepsTo (withRegs [(0, 5), (1, 3)] State.reset) 0x8017 (fun t => t.getV 0 == 0xFE && t.getV 15 == 0) = true := by decide
-- A26, A29
theorem test_shl :
    stepsTo (withRegs [(0, 0x81)] State.reset) 0x800E (fun t => t.getV 0 == 2 && t.getV 15 == 1) = true := by decide
theorem test_shl_vf : stepsTo (withRegs [(15, 0x81)] State.reset) 0x8F0E (fun t => t.getV 15 == 2) = true := by decide
-- A31
theorem test_rnd :
    stepsTo { State.reset with inputs := { State.reset.inputs with rands := [0xA7] } } 0xC30F
      (fun t => t.getV 3 == 7 && t.inputs.rands == []) = true := by decide

-- M1, M2, M3
theorem test_ldI : stepsTo State.reset 0xA250 (fun t => t.I == 0x250) = true := by decide
theorem test_addI :
    stepsTo (withRegs [(2, 2), (15, 9)] { State.reset with I := 0xFFF }) 0xF21E
      (fun t => t.I == 0x1001 && t.getV 15 == 9 && t.halt == none) = true := by decide
theorem test_addI_wraps :
    stepsTo (withRegs [(1, 1)] { State.reset with I := 0xFFFF }) 0xF11E (fun t => t.I == 0) = true := by decide
-- M4
theorem test_ldF : stepsTo (withRegs [(0, 0xFF)] State.reset) 0xF029 (fun t => t.I == 0x4FB) = true := by decide
-- M5, M6
theorem test_ldB :
    stepsTo (withRegs [(0, 254)] { State.reset with I := 0x300 }) 0xF033
      (fun t => t.mem.readBytes 0x300 3 == [2, 5, 4] && t.I == 0x300) = true := by decide
theorem test_ldB_out_of_range :
    stepsTo (withRegs [(0, 1)] { State.reset with I := 0xFFE }) 0xF033
      (fun t => t.halt == some ⟨.memBounds, 0x200, some (0xF0, 0x33), some 0x1000⟩
        && t.mem.readBytes 0xFFE 2 == [0, 0]) = true := by decide
-- M7, M9
theorem test_ldMemVx :
    stepsTo (withRegs [(0, 1), (1, 2), (2, 3)] { State.reset with I := 0x300 }) 0xF255
      (fun t => t.mem.readBytes 0x300 4 == [1, 2, 3, 0] && t.I == 0x300) = true := by decide
theorem test_ldMemVx_out_of_range :
    stepsTo { State.reset with I := 0xFF1 } 0xFF55
      (fun t => t.halt == some ⟨.memBounds, 0x200, some (0xFF, 0x55), some 0x1000⟩) = true := by decide
-- M10, M11
theorem test_ldVxMem :
    stepsTo (withRegs [(1, 7)] (withBytes 0x300 [0xAB, 0xCD] { State.reset with I := 0x300 })) 0xF065
      (fun t => t.getV 0 == 0xAB && t.getV 1 == 7) = true := by decide
theorem test_ldVxMem_font :
    stepsTo State.reset 0xFF65 (fun t => t.V.toList
      == [0xF0, 0x90, 0x90, 0x90, 0xF0, 0x20, 0x60, 0x20, 0x20, 0x70, 0xF0, 0x10, 0xF0, 0x80, 0xF0, 0xF0]) = true := by
  decide

-- K1, K2
theorem test_skp_held :
    stepsTo (withKeys [0x20] (withRegs [(1, 5)] State.reset)) 0xE19E (fun t => t.pc == 0x204) = true := by decide
theorem test_skp_not_held :
    stepsTo (withKeys [0] (withRegs [(1, 5)] State.reset)) 0xE19E (fun t => t.pc == 0x202) = true := by decide
-- K3, K5
theorem test_sknp_not_held :
    stepsTo (withKeys [0] (withRegs [(1, 5)] State.reset)) 0xE1A1 (fun t => t.pc == 0x204) = true := by decide
theorem test_sknp_key_range :
    stepsTo (withRegs [(1, 0x10)] State.reset) 0xE1A1
      (fun t => t.halt == some ⟨.keyRange, 0x200, some (0xE1, 0xA1), some 0x10⟩ && t.pc == 0x200) = true := by decide
-- K6, K7
theorem test_ldVxDt : stepsTo { State.reset with DT := 0x3C } 0xF307 (fun t => t.getV 3 == 0x3C) = true := by decide
theorem test_ldDtVx : stepsTo (withRegs [(2, 0x3C)] State.reset) 0xF215 (fun t => t.DT == 0x3C && t.tacc == 0) = true := by decide
-- S6, step 1
theorem test_ldVxK : stepsTo State.reset 0xF30A (fun t => t.pc == 0x202 && t.kwt == some 3 && t.getV 3 == 0) = true := by decide
-- K8, K10
theorem test_ldStVx_stops_tone :
    stepsTo { State.reset with ST := 5 } 0xF218 (fun t => t.ST == 0 && t.toneStops == 1 && !t.tone) = true := by decide
theorem test_ldStVx :
    stepsTo (withRegs [(2, 0x1E)] State.reset) 0xF218 (fun t => t.ST == 0x1E && t.toneStops == 0 && t.tone) = true := by decide

/-! ### The driver's operations -/

-- T1, T2
theorem test_tick_16 :
    opTo { State.reset with DT := 2, ST := 1, schedule := [.tick 16] }
      (fun t => t.DT == 2 && t.ST == 1 && t.tacc == 960 && t.toneStops == 0) = true := by decide
theorem test_tick_1_more :
    opTo { State.reset with DT := 2, ST := 1, tacc := 960, schedule := [.tick 1] }
      (fun t => t.DT == 1 && t.ST == 0 && t.tacc == 20 && t.toneStops == 1) = true := by decide
-- T6
theorem test_tick_33 :
    opTo { State.reset with DT := 5, schedule := [.tick 33] } (fun t => t.DT == 4 && t.tacc == 980) = true := by decide
-- T8
theorem test_tick_while_halted :
    opTo { State.reset with DT := 3, halt := some ⟨.unimplemented, 0x200, none, none⟩, schedule := [.tick 50] }
      (fun t => t.DT == 0 && t.halt.isSome) = true := by decide
-- LD2, with the boundary 0x202 in place of 0xEA0, so that the limit is 2 bytes
theorem test_load_rejected :
    opTo { State.reset with params := ⟨0x202⟩, schedule := [.load [1, 2, 3]] }
      (fun t => t.mem == [] && t.wlog == [⟨.loadTooLarge, 0x200⟩] && t.loadOk == some false) = true := by decide
-- LD1, with the boundary 0x204, so that the limit is 4 bytes
theorem test_load_accepted :
    opTo { State.reset with params := ⟨0x204⟩, schedule := [.load [1, 2, 3, 4]] }
      (fun t => t.mem.readBytes 0x200 4 == [1, 2, 3, 4] && t.wlog == [] && t.loadOk == some true) = true := by decide

-- R447, R478
theorem test_load_out_of_turn :
    step { State.reset with loadOpen := false, schedule := [.load [1]] } = .refused .loadOutOfTurn := rfl
-- R445: the signals of S8's fault
theorem test_outputs_of_a_fault :
    stepsTo State.reset 0xFFFF (fun t => t.outputs.halted && t.outputs.faultCode == 1 && t.outputs.faultPc == 0x200
      && t.outputs.faultBytesValid && t.outputs.faultBytes == 0xFFFF && !t.outputs.faultAddrValid) = true := by decide

-- log entry 15: the byte fetched first is the high half; and S8's other signals
theorem test_fault_bytes_order :
    stepsTo State.reset 0xE100 (fun t => t.outputs.faultBytes == 0xE100 && t.outputs.faultBytesValid) = true := by decide
-- R446: a tick is no step, and a step is one
theorem test_run_counts_steps :
    let s := { State.reset with schedule := [.load [0x00, 0xE0], .tick 17, .step] }
    (RunPoint.after 2 ⟨0, s⟩).map RunPoint.steps = some 0 ∧ (RunPoint.after 3 ⟨0, s⟩).map RunPoint.steps = some 1 := by
  decide
-- R446: a run ends at its fault, and a scheduled reset does not take it on
theorem test_run_ends_at_a_fault :
    let s := { State.reset with schedule := [.step, .reset] }
    (RunPoint.after 1 ⟨0, s⟩).map (fun p => p.state.halt.isSome) = some true ∧ RunPoint.after 2 ⟨0, s⟩ = none := by
  decide
-- R446: a reset begins another run
theorem test_run_ends_before_a_reset :
    RunPoint.after 1 ⟨0, { State.reset with schedule := [.reset] }⟩ = none := by decide

/-! ### Witnesses: states and operands that meet the hypotheses of each statement of Obligations.lean, one for each
clause, at a boundary value of its range where it has one -/

/-- The reset state with the word 00E0 at `pc`. -/
def onCls : State := withBytes 0x200 [0x00, 0xE0] State.reset

/-- The reset state waiting for a key to V3, with the given snapshot. -/
def waiting (keys : KeySnapshot) : State := withKeys [keys] { onCls with kwt := some 3 }

-- EncodeOfDecodeIsTheWord
theorem witness_encode_of_decode : decode 0xFF65 = .ok (.ldVxMem 15) := by decide
-- StepRunsTheDecodedInstruction, at the first and the last address that can be fetched
theorem witness_step_runs :
    onCls.runs = true ∧ 0x200 ≤ onCls.pc.toNat ∧ onCls.pc.toNat + 1 < 4096 ∧
    decodeBytes [onCls.mem.read onCls.pc.toNat, onCls.mem.read (onCls.pc.toNat + 1)] = .ok (.cls, []) := by decide
theorem witness_step_runs_at_the_top :
    let s := withBytes 0xFFE [0xD1, 0x25] { State.reset with pc := 0xFFE }
    s.runs = true ∧ 0x200 ≤ s.pc.toNat ∧ s.pc.toNat + 1 < 4096 ∧
    decodeBytes [s.mem.read s.pc.toNat, s.mem.read (s.pc.toNat + 1)] = .ok (.drw 1 2 5, []) := by decide
-- TheEndOfAStepClampsTheProgramCounter
theorem witness_clamp :
    let t := { State.reset with pc := 0xEA0 }
    t.halt = none ∧ t.params.stackRegionOffset ≤ t.pc.toNat := by decide
theorem witness_no_clamp_below :
    let t := { State.reset with pc := 0xE9F }
    t.halt ≠ none ∨ t.pc.toNat < t.params.stackRegionOffset := by decide
theorem witness_no_clamp_faulted :
    let t := { State.reset with pc := 0xEA0, halt := some ⟨.keyRange, 0xEA0, none, none⟩ }
    t.halt ≠ none ∨ t.pc.toNat < t.params.stackRegionOffset := by decide
-- TheHaltedStateIsLeftOnlyByReset
theorem witness_halted :
    let s := { State.reset with halt := some ⟨.unimplemented, 0x200, none, none⟩ }
    s.halt = some ⟨.unimplemented, 0x200, none, none⟩ ∧ s.schedule = [] := by decide
theorem witness_halted_scheduled :
    ∃ s t : State, s.halt = some ⟨.unimplemented, 0x200, none, none⟩ ∧ s.schedule = .step :: [] ∧
      DriverOp.step ≠ .reset ∧ step s = .next t :=
  ⟨{ State.reset with halt := some ⟨.unimplemented, 0x200, none, none⟩, schedule := [.step] }, _,
    rfl, rfl, by decide, rfl⟩
-- KeyWaitWithoutAKeyHoldsTheStep
theorem witness_no_key :
    (waiting 0).halt = none ∧ (waiting 0).schedule = [] ∧ (waiting 0).kwt = some 3 ∧
    ∀ k : Key, (waiting 0).held k = false := by decide
-- KeyWaitStoresTheLeastHeldKeyAndGoesOn
theorem witness_key_held :
    let s := waiting 0x8000
    s.halt = none ∧ s.schedule = [] ∧ s.kwt = some 3 ∧ s.held 15 = true ∧ ∀ j : Key, j < 15 → s.held j = false := by
  decide
-- FetchFaultsOutsideTheProgramRange
theorem witness_fetch_low :
    let s := { State.reset with pc := 0x1FF }
    s.runs = true ∧ s.pc.toNat < 0x200 := by decide
theorem witness_fetch_high :
    let s := { State.reset with pc := 0xFFF }
    s.runs = true ∧ 4096 ≤ s.pc.toNat + 1 := by decide
-- AnIllegalWordFaultsWithItsBytes
theorem witness_illegal_word :
    State.reset.runs = true ∧ 0x200 ≤ State.reset.pc.toNat ∧ State.reset.pc.toNat + 1 < 4096 ∧
    State.reset.mem.read State.reset.pc.toNat = 0 ∧ State.reset.mem.read (State.reset.pc.toNat + 1) = 0 ∧
    decode ((0 : Byte) ++ (0 : Byte)) = .error .group0 := by decide
-- FaultsArePrecise, without and with a key-wait resolved in the step
theorem witness_precise :
    ∃ (t : State) (r : FaultRecord), State.reset.halt = none ∧ State.reset.schedule = [] ∧
      step State.reset = .next t ∧ t.halt = some r := ⟨_, _, rfl, rfl, rfl, rfl⟩
theorem witness_precise_after_key :
    let s := withKeys [1] { State.reset with kwt := some 0 }
    ∃ (t : State) (r : FaultRecord), s.halt = none ∧ s.schedule = [] ∧ step s = .next t ∧ t.halt = some r :=
  ⟨_, _, rfl, rfl, rfl, rfl⟩
-- TheExecutePhaseFaultsExactlyHere: one that faults and one that does not, at the edge of memory
theorem witness_execute_faults :
    let s := { State.reset with I := 0xFFE }
    ∃ t : State, s.halt = none ∧ exec (.ldB 0) s = .next t ∧ 4096 ≤ s.I.toNat + 2 := ⟨_, rfl, rfl, by decide⟩
theorem witness_execute_runs :
    let s := { State.reset with I := 0xFFD }
    ∃ t : State, s.halt = none ∧ exec (.ldB 0) s = .next t ∧ s.I.toNat + 2 < 4096 := ⟨_, rfl, rfl, by decide⟩
-- TheWarningLogOnlyGrows
theorem witness_wlog : ∃ t, onCls.schedule.head? ≠ some .reset ∧ step onCls = .next t := ⟨_, by decide, rfl⟩
-- EveryStepKeepsTheInvariant
theorem witness_invariant : ∃ t, onCls.Inv ∧ step onCls = .next t := ⟨_, ⟨by decide, by decide, by decide⟩, rfl⟩
-- EachPieceOfStateHasItsWriters
theorem witness_writers : ∃ t, exec (.ldMemVx 15) State.reset = .next t := ⟨_, rfl⟩
-- VFHasItsWriters
theorem witness_vf :
    ∃ t, exec (.ldImm 15 5) State.reset = .next t ∧ t.getV 15 ≠ State.reset.getV 15 := ⟨_, rfl, by decide⟩
-- OtherInstructionsDoNotSeeTheEnvironment
theorem witness_blind :
    (∀ x kk, Instr.cls ≠ .rnd x kk) ∧ (∀ x, Instr.cls ≠ .skp x) ∧ (∀ x, Instr.cls ≠ .sknp x) :=
  ⟨nofun, nofun, nofun⟩
-- Add, subtract and shift: a destination that is not VF, and VF
theorem witness_not_vf : (14 : Reg) ≠ 15 ∧ (15 : Reg) = 15 := by decide
-- CallPushesTheReturnAddress
theorem witness_call_last_slot : ({ State.reset with sp := 15 } : State).sp.val < 16 := by decide
theorem witness_call_full : ({ State.reset with sp := 16 } : State).sp.val = 16 := by decide
-- ReturnPopsTheTopSlot
theorem witness_ret_full : ({ State.reset with sp := 16 } : State).sp.val = (15 : Fin 16).val + 1 := by decide
theorem witness_ret_one : ({ State.reset with sp := 1 } : State).sp.val = (0 : Fin 16).val + 1 := by decide
theorem witness_ret_empty : State.reset.sp.val = 0 := by decide
-- CallThenReturnComesBack, into the last slot
theorem witness_call_ret :
    let s := { State.reset with sp := 15 }
    ∃ t u : State, s.sp.val < 16 ∧ exec (.call 0x300) s = .next t ∧ u.sp = t.sp ∧ u.stack = t.stack :=
  ⟨_, _, by decide, rfl, rfl, rfl⟩
-- StoreDecimalWritesThreeDigits
theorem witness_decimal :
    let s := { State.reset with I := 0xFFD }
    s.baseAddr + 2 < 4096 ∧ s.mem.wf = true := by decide
-- StoreRegistersWritesTheRange, LoadRegistersReadsTheRange
theorem witness_range :
    let s := { State.reset with I := 0xFF0 }
    s.baseAddr + (15 : Reg).val < 4096 ∧ s.mem.wf = true := by decide
-- AnAccessPastMemoryFaults: each form, one byte past
theorem witness_past_drw :
    let s := { State.reset with I := 0xFF2 }
    (∃ x y n, Instr.drw 0 0 15 = .drw x y n ∧ 15 = n.toNat) ∧ 0 < 15 ∧ 4096 < s.baseAddr + 15 :=
  ⟨⟨0, 0, 15, rfl, rfl⟩, by decide, by decide⟩
theorem witness_past_ldB :
    let s := { State.reset with I := 0xFFE }
    (∃ x, Instr.ldB 0 = .ldB x) ∧ 0 < 3 ∧ 4096 < s.baseAddr + 3 := ⟨⟨0, rfl⟩, by decide, by decide⟩
theorem witness_past_range :
    let s := { State.reset with I := 0xFFF }
    (∃ x : Reg, Instr.ldVxMem 1 = .ldVxMem x ∧ 2 = x.val + 1) ∧ 0 < 2 ∧ 4096 < s.baseAddr + 2 :=
  ⟨⟨1, rfl, rfl⟩, by decide, by decide⟩
-- DrawInvertsTheCoveredCells, DrawingTwiceRestoresTheDisplay
theorem witness_draw :
    let s := { State.reset with I := 0xFF1 }
    ∃ t, (1 : Reg) ≠ 15 ∧ (2 : Reg) ≠ 15 ∧ (∀ k < (15 : Nibble).toNat, s.baseAddr + k < 4096) ∧
      exec (.drw 1 2 15) s = .next t ∧ ∀ r c, s.disp.cell r c = false :=
  ⟨_, by decide, by decide, by decide, rfl, fun r c => Display.cell_clear r c⟩
-- TheFlatDisplayIsRowMajor
theorem witness_flat : (31 : Fin 32).val * 64 + (63 : Fin 64).val < 2048 := by decide
-- KeySkipsFollowTheKey, AKeyAboveFifteenFaults
theorem witness_key : ((withRegs [(1, 15)] State.reset).getV 1).toNat < 16 := by decide
theorem witness_key_range :
    (Instr.sknp 1 = .skp 1 ∨ Instr.sknp 1 = .sknp 1) ∧ 15 < ((withRegs [(1, 16)] State.reset).getV 1).toNat := by decide
-- TickTimersTouchesOnlyTheTimers
theorem witness_tick :
    ({ State.reset with tacc := 999, schedule := [.tick 1] } : State).schedule = .tick 1 :: [] := rfl
-- ResetFromEveryState
theorem witness_reset :
    ({ State.reset with halt := some ⟨.keyRange, 0x200, none, none⟩, schedule := [.reset] } : State).schedule
      = .reset :: [] := rfl
-- LoadCopiesOrRejects, at the limit and one past it
theorem witness_load :
    let s := { State.reset with params := ⟨0x202⟩, schedule := [.load [1, 2]] }
    s.schedule = .load [1, 2] :: [] ∧ s.loadOpen = true ∧ [1, 2].length ≤ s.params.stackRegionOffset - 0x200 ∧
    s.mem.wf = true ∧ s.params.legal = true := by decide
theorem witness_load_too_large :
    let s := { State.reset with params := ⟨0x202⟩, schedule := [.load [1, 2, 3]] }
    s.schedule = .load [1, 2, 3] :: [] ∧ s.loadOpen = true ∧
    s.params.stackRegionOffset - 0x200 < [1, 2, 3].length := by decide

-- AScheduledStepIsTheSameStep
theorem witness_scheduled :
    ({ onCls with schedule := [.step, .tick 17] } : State).schedule = .step :: [.tick 17] ∧
    ({ onCls with schedule := [.idle] } : State).schedule = .idle :: [] := by decide
-- AFaultedRunHasNoLaterGoodEnd: a program of one instruction, which faults behind it at the second step
theorem witness_faulted_run :
    let s := { State.reset with schedule := [.load [0x00, 0xE0]] }
    ∃ t u, faultedEnd 2 s t ∧ goodEnd 1 s u :=
  ⟨_, _, ⟨⟨by decide, 3, rfl⟩, by decide⟩, ⟨⟨by decide, 2, rfl⟩, by decide⟩⟩

end Sys2Proof.Tests
end

section
/-! PROOFS. The invariant of the state (10_state.md R39, 00_scope.md R14): the reset state has it and every operation of
the driver keeps it. It speaks of the parameter, memory and the program counter only, so each operation is one short
lemma on what it does to these three. -/

namespace Sys2Proof.Machine

/-- The invariant depends on the parameter, memory and the program counter only. -/
theorem State.Inv.congr {s t : State} (h : s.Inv) (hparams : t.params = s.params) (hmem : t.mem = s.mem)
    (hpc : t.pc = s.pc) : t.Inv where
  paramsLegal := hparams ▸ h.paramsLegal
  memWf := hmem ▸ h.memWf
  pcBelow := by rw [hpc, hparams]; exact h.pcBelow

/-- Settles O19: the default parameter is legal, no address is listed and `pc` is 0x200. -/
theorem theResetStateHasTheInvariant : Obligations.TheResetStateHasTheInvariant :=
  ⟨by decide, rfl, by decide⟩

/-- A reset keeps the parameter, whose legal values are all above PROGRAM_LOAD_OFFSET (R14, R470). -/
theorem inv_resetMachine {s : State} (h : s.Inv) : (resetMachine s).Inv where
  paramsLegal := h.paramsLegal
  memWf := rfl
  pcBelow := by
    obtain ⟨hlow, -⟩ := Params.bounds h.paramsLegal
    have hpc : (resetMachine s).pc.toNat = Config.loadOffset := rfl
    have hoffset : (resetMachine s).params = s.params := rfl
    rw [hpc, hoffset]
    omega

/-- A load keeps the invariant: an accepted program fits in memory, a rejected one is not written (R475, R476). -/
theorem inv_loadProgram {s : State} (bytes : List Byte) (h : s.Inv) : (loadProgram bytes s).Inv := by
  unfold loadProgram
  split
  next => exact h.congr rfl rfl rfl
  next hfits =>
    exact ⟨h.paramsLegal, Memory.wf_writeBytes h.memWf _ _ (load_fits h.paramsLegal hfits), h.pcBelow⟩

/-- The Timer Clock touches none of the invariant's pieces (R98). -/
theorem inv_tickTimers {s : State} (elapsedMs : Nat) (h : s.Inv) : (tickTimers elapsedMs s).Inv := by
  rw [tickTimers, ticks_frame]
  exact h.congr rfl rfl rfl

/-- An instruction keeps the canonical form of memory. -/
theorem exec_mem_wf {i : Instr} {s t : State} (h : exec i s = .next t) (hwf : s.mem.wf = true) :
    t.mem.wf = true := by
  obtain hmem | ⟨bs, hfits, hmem⟩ := exec_mem_cases h
  · rwa [hmem]
  · rw [hmem]
    exact Memory.wf_writeBytes hwf _ _ hfits

/-- The clamp brings the program counter below a legal boundary, from wherever it stands (R171). -/
theorem inv_clampPc {s : State} (A : Word) (hparams : s.params.legal = true) (hmem : s.mem.wf = true) :
    (s.clampPc A).Inv where
  paramsLegal := by rwa [clampPc_params]
  memWf := by rwa [clampPc_mem]
  pcBelow := by
    obtain ⟨hlow, -⟩ := Params.bounds hparams
    rw [clampPc_params]
    exact clampPc_below A s (by omega)

/-- An instruction of a running core with the end of its step keeps the invariant: a fault leaves the three pieces as
they are, and otherwise the clamp follows. -/
theorem inv_retire_exec {i : Instr} {s t : State} (A : Word) (h : s.Inv) (hrun : s.halt = none)
    (he : exec i s = .next t) : (retire A t).Inv := by
  obtain hhalt | ⟨code, bytes, addr, rfl⟩ := exec_halt_cases he
  · have hnot : ¬ t.halt.isSome = true := by simp [hhalt, hrun]
    rw [retire, if_neg hnot]
    exact (inv_clampPc A (exec_params he ▸ h.paramsLegal) (exec_mem_wf he h.memWf)).congr rfl rfl rfl
  · exact h.congr rfl rfl rfl

/-- `step()` of the core keeps the invariant. -/
theorem inv_dispatcherStep {s t : State} (h : s.Inv) (hs : dispatcherStep s = .next t) : t.Inv := by
  obtain ⟨-, rfl⟩ | ⟨hrun, rfl | ⟨u, hu, hend⟩⟩ := dispatcherStep_cases hs
  · exact h
  · exact h.congr rfl rfl rfl
  · have hresolved : u.Inv ∧ u.halt = none := by
      obtain rfl | ⟨r, k, rfl⟩ := hu
      · exact ⟨h, hrun⟩
      · exact ⟨h.congr rfl rfl rfl, hrun⟩
    obtain ⟨hinv, hhalt⟩ := hresolved
    obtain ⟨code, bytes, addr, rfl⟩ | ⟨i, v, he, rfl⟩ := hend
    · exact hinv.congr rfl rfl rfl
    · exact inv_retire_exec u.pc hinv hhalt he

/-- Every operation of the driver keeps the invariant. -/
theorem inv_runOp {op : DriverOp} {s t : State} (h : s.Inv) (hs : runOp op s = .next t) : t.Inv := by
  cases op with
  | idle => cases hs; exact h
  | reset => cases hs; exact inv_resetMachine h
  | load bytes =>
    simp only [runOp] at hs
    split at hs
    · cases hs; exact inv_loadProgram bytes h
    · cases hs
  | step => exact inv_dispatcherStep h hs
  | tick elapsedMs => cases hs; exact inv_tickTimers elapsedMs h

/-- Settles O18, by what the driver calls next: `step()` when nothing is scheduled, else the scheduled operation, which
finds the invariant unharmed by its removal from the schedule. -/
theorem everyStepKeepsTheInvariant : Obligations.EveryStepKeepsTheInvariant := by
  intro s t h hs
  cases hsched : s.schedule with
  | nil => exact inv_dispatcherStep h (step_of_empty hsched ▸ hs)
  | cons op rest =>
    rw [step_of_cons hsched] at hs
    have hkept : (s.withSchedule rest).Inv := h.congr rfl rfl rfl
    exact inv_runOp hkept hs

end Sys2Proof.Machine
end

section
/-! PROOFS. Who writes what (10_state.md R33, R34, R37, R40 to R47, R51). Two lemmas say once what an instruction can
do: the frame of each instruction with the fault as the other case (`exec_frame`), and the registers it can change
(`exec_getV_of_notMem`). -/

namespace Sys2Proof.Machine

/-! ### The frame of each instruction -/

/-- A push changes slots, `sp` and the warning log only. -/
theorem pushPc_frame (s : State) (A : Word) :
    ∃ slots n log, s.pushPc A = { s with stack := slots, sp := n, wlog := log } := by
  unfold State.pushPc
  split <;> exact ⟨_, _, _, rfl⟩

/-- A pop changes the program counter, `sp` and the warning log only. -/
theorem popPc_frame (s : State) (A : Word) :
    ∃ target n log, s.popPc A = { s with pc := target, sp := n, wlog := log } := by
  unfold State.popPc
  split <;> exact ⟨_, _, _, rfl⟩

/-- The six forms whose execute phase can fault (60_exceptions.md R403, D12, D14). -/
def CanFault (i : Instr) : Prop :=
  (∃ x y n, i = .drw x y n) ∨
    ∃ x, i = .ldB x ∨ i = .ldMemVx x ∨ i = .ldVxMem x ∨ i = .skp x ∨ i = .sknp x

/-- The pieces of state an instruction may change when it does not fault, the program counter being 2 on where the
instruction is no control transfer and no skip. Which registers are in `V` is `exec_getV_of_notMem`'s to say. -/
def CompletedFrame (i : Instr) (s t : State) : Prop :=
  match i with
  | .cls => ∃ cells, t = { s.advance with disp := cells }
  | .ret => ∃ target n log, t = { s with pc := target, sp := n, wlog := log }
  | .call _ => ∃ target slots n log, t = { s with pc := target, stack := slots, sp := n, wlog := log }
  | .jp _ | .jpV0 _ | .seImm _ _ | .sneImm _ _ | .seReg _ _ _ | .sneReg _ _ _ | .skp _ | .sknp _ =>
    ∃ target, t = { s with pc := target }
  | .ldImm _ _ | .addImm _ _ | .ldReg _ _ | .orReg _ _ | .andReg _ _ | .xorReg _ _ | .addReg _ _ | .sub _ _
  | .shr _ _ | .subn _ _ | .shl _ _ | .ldVxDt _ | .ldVxMem _ => ∃ regs, t = { s.advance with V := regs }
  | .rnd _ _ => ∃ regs answers, t = { s.advance with V := regs, inputs := answers }
  | .drw _ _ _ => ∃ regs cells, t = { s.advance with V := regs, disp := cells }
  | .ldI _ | .addI _ | .ldF _ => ∃ address, t = { s.advance with I := address }
  | .ldB _ | .ldMemVx _ => ∃ bytes, t = { s.advance with mem := bytes }
  | .ldDtVx _ => ∃ count, t = { s.advance with DT := count }
  | .ldStVx _ => ∃ count events, t = { s.advance with ST := count, toneStops := events }
  | .ldVxK _ => ∃ target, t = { s.advance with kwt := target }

/-- An instruction that can fault changes `halt` alone and keeps everything else, or it stays within its frame. -/
theorem exec_frame {i : Instr} {s t : State} (h : exec i s = .next t) :
    (CanFault i ∧ t = { s with halt := t.halt }) ∨ CompletedFrame i s t := by
  cases i
  case drw =>
    obtain ⟨-, rfl⟩ | ⟨-, -, rfl⟩ := accessThroughI_cases h
    · exact .inr ⟨_, _, rfl⟩
    · exact .inl ⟨by simp [CanFault], rfl⟩
  case ldB | ldMemVx | ldVxMem =>
    obtain ⟨-, rfl⟩ | ⟨-, -, rfl⟩ := accessThroughI_cases h
    · exact .inr ⟨_, rfl⟩
    · exact .inl ⟨by simp [CanFault], rfl⟩
  case skp | sknp =>
    obtain ⟨-, c, rfl⟩ | ⟨-, rfl⟩ := skipOnKey_cases h
    · exact .inr ⟨_, rfl⟩
    · exact .inl ⟨by simp [CanFault], rfl⟩
  case ret =>
    obtain ⟨target, n, log, hpop⟩ := popPc_frame s.advance s.pc
    cases h
    exact .inr ⟨target, n, log, hpop⟩
  case call nnn =>
    obtain ⟨slots, n, log, hpush⟩ := pushPc_frame s.advance s.pc
    cases h
    exact .inr ⟨zextAddr nnn, slots, n, log, by rw [hpush]; rfl⟩
  case rnd | ldStVx => cases h; exact .inr ⟨_, _, rfl⟩
  all_goals cases h; exact .inr ⟨_, rfl⟩

/-! ### The registers -/

/-- LD Vx, [I] leaves the registers above Vx as they were (R335). -/
theorem loadRegs_getElem_of_lt (V : Vector Byte 16) {x r : Reg} (m : Memory) (base : Nat) (h : x < r) :
    (loadRegs V x m base)[r.val] = V[r.val] := by
  rw [loadRegs, Vector.getElem_ofFn, if_neg (Nat.not_le.2 h)]

/-- A register not listed for an instruction keeps its value (R33). -/
theorem exec_getV_of_notMem {i : Instr} {s t : State} {r : Reg} (h : exec i s = .next t)
    (hr : r ∉ writtenRegs i) : t.getV r = s.getV r := by
  cases i
  case drw =>
    obtain ⟨-, rfl⟩ | ⟨-, -, rfl⟩ := accessThroughI_cases h
    · rw [getV_setVF, if_neg (by simpa [writtenRegs] using hr)]
      rfl
    · rfl
  case ldVxMem x =>
    obtain ⟨-, rfl⟩ | ⟨-, -, rfl⟩ := accessThroughI_cases h
    · exact loadRegs_getElem_of_lt _ _ _ (by simpa [writtenRegs] using hr)
    · rfl
  case ldB | ldMemVx => obtain ⟨-, rfl⟩ | ⟨-, -, rfl⟩ := accessThroughI_cases h <;> rfl
  case skp | sknp => obtain ⟨-, c, rfl⟩ | ⟨-, rfl⟩ := skipOnKey_cases h <;> rfl
  case ret => cases h; exact getV_congr (popPc_V _ _) r
  case call => cases h; exact getV_congr (pushPc_V _ _) r
  case addReg | sub | subn | shr | shl =>
    cases h
    simp only [writtenRegs, List.mem_cons, List.not_mem_nil, or_false, not_or] at hr
    simp [getV_setV, getV_setVF, hr]
  case ldImm | addImm | ldReg | orReg | andReg | xorReg | rnd | ldVxDt =>
    cases h
    rw [getV_setV, if_neg (by simpa [writtenRegs] using hr)]
    rfl
  all_goals cases h; rfl

/-- The instructions that list VF: the six flag writers, and those with VF as their destination (R34). -/
theorem vf_mem_writtenRegs {i : Instr} (h : (15 : Reg) ∈ writtenRegs i) :
    (∃ x y, i = .addReg x y ∨ i = .sub x y ∨ i = .shr x y ∨ i = .subn x y ∨ i = .shl x y) ∨
    (∃ x y n, i = .drw x y n) ∨
    (∃ kk, i = .ldImm 15 kk ∨ i = .addImm 15 kk ∨ i = .rnd 15 kk) ∨
    (∃ y, i = .ldReg 15 y ∨ i = .orReg 15 y ∨ i = .andReg 15 y ∨ i = .xorReg 15 y) ∨
    i = .ldVxDt 15 ∨ i = .ldVxMem 15 := by
  cases i
  case ldVxMem x =>
    have hx : (15 : Reg) ≤ x := by simpa [writtenRegs] using h
    obtain rfl : x = 15 := Fin.last_le_iff.1 hx
    simp
  case ldImm x _ | addImm x _ | rnd x _ | ldReg x _ | orReg x _ | andReg x _ | xorReg x _ | ldVxDt x =>
    obtain rfl : 15 = x := by simpa only [writtenRegs, List.mem_singleton] using h
    simp
  case addReg | sub | shr | subn | shl | drw => simp
  all_goals simp only [writtenRegs, List.not_mem_nil] at h

/-- Settles O21: a register that changes is listed for the instruction, and VF is listed for these only. -/
theorem vfHasItsWriters : Obligations.VFHasItsWriters := fun _ _ _ h hchanged =>
  vf_mem_writtenRegs (Classical.not_not.1 fun hr => hchanged (exec_getV_of_notMem h hr))

/-- Settles O20. The registers are `exec_getV_of_notMem`; a fault changes `halt` alone; and an instruction that does
not fault is within its frame, where each piece is unchanged or the instruction is listed for it. -/
theorem eachPieceOfStateHasItsWriters : Obligations.EachPieceOfStateHasItsWriters := by
  intro i s t h
  refine ⟨fun r hr => exec_getV_of_notMem h hr, ?_⟩
  obtain ⟨hform, hfault⟩ | hframe := exec_frame h
  · refine ⟨fun _ => .inl hfault, fun _ => ⟨hfault, hform⟩, ?_⟩
    rw [hfault]
    simp
  · cases i
    case ret => obtain ⟨_, _, _, rfl⟩ := hframe; simp
    case call => obtain ⟨_, _, _, _, rfl⟩ := hframe; simp
    case rnd | drw | ldStVx => obtain ⟨_, _, rfl⟩ := hframe; simp
    all_goals obtain ⟨_, rfl⟩ := hframe; simp

end Sys2Proof.Machine
end

section
/-! PROOFS. The flat view of the display (10_state.md R52). -/

namespace Sys2Proof.Machine

/-- Settles O48: the cell at `64 * r + c` of the concatenated rows is cell `c` of row `r`. -/
theorem theFlatDisplayIsRowMajor : Obligations.TheFlatDisplayIsRowMajor := by
  intro s r c h
  have hrow : (r.val * 64 + c.val) / 64 = r.val := by have := c.isLt; omega
  have hcol : (r.val * 64 + c.val) % 64 = c.val := by have := c.isLt; omega
  have hflat : s.flatDisplay[r.val * 64 + c.val] = _ := Vector.getElem_flatten (xss := s.disp) h
  simp only [hflat, hrow, hcol, Display.cell]

end Sys2Proof.Machine
end

section
/-! PROOFS. Accesses through I that reach past memory (20_memory.md R86, R87). The four forms are one operation with
its bounds check, so the fault is said once, by `accessThroughI_past`. -/

namespace Sys2Proof.Machine

/-- The forms that access memory through I, with the number of bytes each accesses: the sprite rows of DRW, the three
digits of LD B, the registers V0 to Vx of the range transfers (R86). -/
def AccessesThroughI (i : Instr) (count : Nat) : Prop :=
  (∃ x y n, i = .drw x y n ∧ count = n.toNat) ∨ (∃ x, i = .ldB x ∧ count = 3) ∨
    ∃ x : Reg, (i = .ldMemVx x ∨ i = .ldVxMem x) ∧ count = x.val + 1

/-- Each form that accesses memory through I checks its bytes first and has an effect only if they are in memory. -/
theorem exec_eq_accessThroughI {i : Instr} {count : Nat} (hform : AccessesThroughI i count) (s : State) :
    ∃ effect, exec i s = accessThroughI i count s effect := by
  obtain ⟨x, y, n, rfl, rfl⟩ | ⟨x, rfl, rfl⟩ | ⟨x, rfl | rfl, rfl⟩ := hform <;>
    exact ⟨_, rfl⟩

/-- Settles O44: every form is an access through I, and one past memory raises the fault before its effect. -/
theorem anAccessPastMemoryFaults : Obligations.AnAccessPastMemoryFaults := by
  intro i count s hform hpos hpast
  obtain ⟨effect, hexec⟩ := exec_eq_accessThroughI hform s
  exact hexec.trans (accessThroughI_past i count s effect hpos hpast)

end Sys2Proof.Machine
end

section
/-! PROOFS. The encoding (30_encoding.md). The fields of a word are its bits as numbers, and a word is its fields put
together in any of the three forms; decoding an encoded instruction and encoding a decoded one both go through these
forms. What the decoder rejects is said once per selector, by the model's own check `Fields.legal`. -/

namespace Sys2Proof

/-! ### The fields as numbers (R122) -/

theorem toNat_fieldsOf_group (w : Word) : (fieldsOf w).group.toNat = w.toNat / 4096 := by
  have := w.isLt
  simp only [fieldsOf, toNat_extract]
  omega

theorem toNat_fieldsOf_x (w : Word) : (fieldsOf w).x.toNat = w.toNat / 256 % 16 := toNat_extract w 8 4

theorem toNat_fieldsOf_y (w : Word) : (fieldsOf w).y.toNat = w.toNat / 16 % 16 := toNat_extract w 4 4

theorem toNat_fieldsOf_n (w : Word) : (fieldsOf w).n.toNat = w.toNat % 16 := by
  simp only [fieldsOf, toNat_extract, Nat.pow_zero, Nat.div_one, Nat.reducePow]

theorem toNat_fieldsOf_kk (w : Word) : (fieldsOf w).kk.toNat = w.toNat % 256 := by
  simp only [fieldsOf, toNat_extract, Nat.pow_zero, Nat.div_one, Nat.reducePow]

theorem toNat_fieldsOf_nnn (w : Word) : (fieldsOf w).nnn.toNat = w.toNat % 4096 := by
  simp only [fieldsOf, toNat_extract, Nat.pow_zero, Nat.div_one, Nat.reducePow]

theorem fieldsOf_nnn_eq_append (w : Word) : (fieldsOf w).nnn = (fieldsOf w).x ++ (fieldsOf w).kk := by
  apply BitVec.eq_of_toNat_eq
  rw [toNat_concat, toNat_fieldsOf_nnn, toNat_fieldsOf_x, toNat_fieldsOf_kk]
  omega

/-- Settles O1, each field by its lemma. -/
theorem fieldsAreBitsOfTheWord : Obligations.FieldsAreBitsOfTheWord := fun w =>
  ⟨toNat_fieldsOf_group w, toNat_fieldsOf_x w, toNat_fieldsOf_y w, toNat_fieldsOf_n w, toNat_fieldsOf_kk w,
    toNat_fieldsOf_nnn w, fieldsOf_nnn_eq_append w⟩

/-- Settles O5: eight fixed words, evaluated. -/
theorem wordsFromTheOpcodeMapDecode : Obligations.WordsFromTheOpcodeMapDecode := by
  unfold Obligations.WordsFromTheOpcodeMapDecode
  decide

/-! ### Decoding an encoded instruction -/

/-- Settles O2. The instructions are taken by the form of their word and the selector of their group: the fields cut
from the word are the ones it was put together from, and they select the instruction's row. -/
theorem decodeOfEncodeIsTheInstruction : Obligations.DecodeOfEncodeIsTheInstruction := by
  intro i
  cases i
  case cls | ret => decide
  case jp | call | ldI | jpV0 => simp [decode, encode, select, fieldsOf_wordNNN]
  case seImm | sneImm | ldImm | addImm | rnd => simp [decode, encode, select, fieldsOf_wordXKK]
  case seReg | sneReg | drw => simp [decode, encode, select, fieldsOf_wordXYN]
  case ldReg | orReg | andReg | xorReg | addReg | sub | shr | subn | shl =>
    simp [decode, encode, select, selectGroup8, fieldsOf_wordXYN]
  case skp | sknp => simp [decode, encode, select, selectGroupE, fieldsOf_wordXKK]
  case ldVxDt | ldVxK | ldDtVx | ldStVx | addI | ldF | ldB | ldMemVx | ldVxMem =>
    simp [decode, encode, select, selectGroupF, fieldsOf_wordXKK]

/-! ### Encoding a decoded instruction -/

theorem wordNNN_fieldsOf (w : Word) : wordNNN (fieldsOf w).group (fieldsOf w).nnn = w := by
  apply BitVec.eq_of_toNat_eq
  rw [toNat_wordNNN, toNat_fieldsOf_group, toNat_fieldsOf_nnn]
  omega

theorem wordXKK_fieldsOf (w : Word) :
    wordXKK (fieldsOf w).group (regOf (fieldsOf w).x) (fieldsOf w).kk = w := by
  apply BitVec.eq_of_toNat_eq
  rw [toNat_wordXKK, val_regOf, toNat_fieldsOf_group, toNat_fieldsOf_x, toNat_fieldsOf_kk]
  omega

theorem wordXYN_fieldsOf (w : Word) :
    wordXYN (fieldsOf w).group (regOf (fieldsOf w).x) (regOf (fieldsOf w).y) (fieldsOf w).n = w := by
  apply BitVec.eq_of_toNat_eq
  rw [toNat_wordXYN, val_regOf, val_regOf, toNat_fieldsOf_group, toNat_fieldsOf_x, toNat_fieldsOf_y,
    toNat_fieldsOf_n]
  omega

theorem encode_of_selectGroup0 {f : Fields} {i : Instr} (h : selectGroup0 f = .ok i) :
    encode i = wordNNN 0x0 f.nnn := by
  unfold selectGroup0 at h
  split_ifs at h <;> cases h <;> simp only [encode, *]

theorem encode_of_selectGroup8 {f : Fields} {i : Instr} (h : selectGroup8 f = .ok i) :
    encode i = wordXYN 0x8 (regOf f.x) (regOf f.y) f.n := by
  unfold selectGroup8 at h
  split_ifs at h <;> cases h <;> simp only [encode, *]

theorem encode_of_selectGroupE {f : Fields} {i : Instr} (h : selectGroupE f = .ok i) :
    encode i = wordXKK 0xE (regOf f.x) f.kk := by
  unfold selectGroupE at h
  split_ifs at h <;> cases h <;> simp only [encode, *]

theorem encode_of_selectGroupF {f : Fields} {i : Instr} (h : selectGroupF f = .ok i) :
    encode i = wordXKK 0xF (regOf f.x) f.kk := by
  unfold selectGroupF at h
  split_ifs at h <;> cases h <;> simp only [encode, *]

/-- The word is the record's fields put together in one of the three forms of R125's patterns. -/
def Fields.FormWord (f : Fields) (w : Word) : Prop :=
  w = wordNNN f.group f.nnn ∨ w = wordXKK f.group (regOf f.x) f.kk ∨
    w = wordXYN f.group (regOf f.x) (regOf f.y) f.n

/-- The fields of a word form no other word. -/
theorem eq_of_fieldsOf_formWord {v w : Word} (h : (fieldsOf w).FormWord v) : v = w := by
  obtain hform | hform | hform := h
  · exact hform.trans (wordNNN_fieldsOf w)
  · exact hform.trans (wordXKK_fieldsOf w)
  · exact hform.trans (wordXYN_fieldsOf w)

/-- Four groups have a selector of their own, and every record of the others is an instruction (R126 to R131). -/
theorem select_cases (f : Fields) :
    (f.group = 0x0 ∧ select f = selectGroup0 f) ∨ (f.group = 0x8 ∧ select f = selectGroup8 f) ∨
    (f.group = 0xE ∧ select f = selectGroupE f) ∨ (f.group = 0xF ∧ select f = selectGroupF f) ∨
    (f.group ∉ [0x0, 0x8, 0xE, 0xF] ∧ ∃ i, select f = .ok i ∧ f.FormWord (encode i)) := by
  obtain ⟨group, x, y, n, kk, nnn⟩ := f
  fin_cases group <;> simp [select, FinEnum.equiv, Fields.FormWord, encode]

/-- A selected instruction encodes to the record's fields, put together in the form of its group. -/
theorem formWord_of_select {f : Fields} {i : Instr} (h : select f = .ok i) : f.FormWord (encode i) := by
  obtain ⟨hg, hsel⟩ | ⟨hg, hsel⟩ | ⟨hg, hsel⟩ | ⟨hg, hsel⟩ | ⟨-, j, hsel, hform⟩ := select_cases f <;>
    rw [hsel] at h
  · exact .inl (hg ▸ encode_of_selectGroup0 h)
  · exact .inr (.inr (hg ▸ encode_of_selectGroup8 h))
  · exact .inr (.inl (hg ▸ encode_of_selectGroupE h))
  · exact .inr (.inl (hg ▸ encode_of_selectGroupF h))
  · cases h
    exact hform

/-- Settles O3: the instruction encodes to the word's fields put together, which can only be the word. -/
theorem encodeOfDecodeIsTheWord : Obligations.EncodeOfDecodeIsTheWord := fun _ _ h =>
  eq_of_fieldsOf_formWord (formWord_of_select h)

/-! ### The illegal words

Each selector rejects what the check of its group calls illegal; the checks are then read as numbers. -/

theorem selectGroup0_error_iff (f : Fields) : (∃ e, selectGroup0 f = .error e) ↔ f.group0Legal = false := by
  unfold selectGroup0 Fields.group0Legal
  split_ifs <;> simp_all

theorem selectGroup8_error_iff (f : Fields) : (∃ e, selectGroup8 f = .error e) ↔ f.group8Legal = false := by
  obtain ⟨group, x, y, n, kk, nnn⟩ := f
  fin_cases n <;> simp [selectGroup8, Fields.group8Legal, FinEnum.equiv]

theorem selectGroupE_error_iff (f : Fields) : (∃ e, selectGroupE f = .error e) ↔ f.groupELegal = false := by
  unfold selectGroupE Fields.groupELegal
  split_ifs <;> simp_all

theorem selectGroupF_error_iff (f : Fields) : (∃ e, selectGroupF f = .error e) ↔ f.groupFLegal = false := by
  unfold selectGroupF Fields.groupFLegal
  split_ifs <;> simp_all

/-- The Dispatcher rejects exactly the illegal records: four groups by their selector, the others never. -/
theorem select_error_iff (f : Fields) : (∃ e, select f = .error e) ↔ f.legal = false := by
  obtain ⟨hg, hsel⟩ | ⟨hg, hsel⟩ | ⟨hg, hsel⟩ | ⟨hg, hsel⟩ | ⟨hg, i, hsel, -⟩ := select_cases f <;>
    rw [hsel]
  · simp [Fields.legal, hg, selectGroup0_error_iff]
  · simp [Fields.legal, hg, selectGroup8_error_iff]
  · simp [Fields.legal, hg, selectGroupE_error_iff]
  · simp [Fields.legal, hg, selectGroupF_error_iff]
  · simp_all [Fields.legal]

theorem Fields.legal_eq_false_iff (f : Fields) : f.legal = false ↔
    (f.group.toNat = 0x0 ∧ f.group0Legal = false) ∨ (f.group.toNat = 0x8 ∧ f.group8Legal = false) ∨
    (f.group.toNat = 0xE ∧ f.groupELegal = false) ∨ (f.group.toNat = 0xF ∧ f.groupFLegal = false) := by
  simp only [Fields.legal, ← BitVec.toNat_inj]
  split_ifs <;> simp_all

theorem group0Legal_fieldsOf_eq_false_iff (w : Word) :
    (fieldsOf w).group0Legal = false ↔ w.toNat % 4096 ≠ 0x0E0 ∧ w.toNat % 4096 ≠ 0x0EE := by
  simp [Fields.group0Legal, ← BitVec.toNat_inj, toNat_fieldsOf_nnn]

theorem group8Legal_fieldsOf_eq_false_iff (w : Word) :
    (fieldsOf w).group8Legal = false ↔ w.toNat % 16 ∈ [0x8, 0x9, 0xA, 0xB, 0xC, 0xD, 0xF] := by
  have hlegal : (fieldsOf w).group8Legal = false ↔ 7 < w.toNat % 16 ∧ w.toNat % 16 ≠ 0xE := by
    simp [Fields.group8Legal, ← BitVec.toNat_inj, toNat_fieldsOf_n]
  simp only [hlegal, List.mem_cons, List.not_mem_nil, or_false]
  omega

theorem groupELegal_fieldsOf_eq_false_iff (w : Word) :
    (fieldsOf w).groupELegal = false ↔ w.toNat % 256 ∉ [0x9E, 0xA1] := by
  simp [Fields.groupELegal, ← BitVec.toNat_inj, toNat_fieldsOf_kk]

theorem groupFLegal_fieldsOf_eq_false_iff (w : Word) :
    (fieldsOf w).groupFLegal = false ↔
      w.toNat % 256 ∉ [0x07, 0x0A, 0x15, 0x18, 0x1E, 0x29, 0x33, 0x55, 0x65] := by
  simp [Fields.groupFLegal, ← BitVec.toNat_inj, toNat_fieldsOf_kk]

/-- Settles O4: the rejected words are those whose fields are illegal, read as numbers group by group. -/
theorem decodeRejectsExactlyTheIllegalWords : Obligations.DecodeRejectsExactlyTheIllegalWords := by
  intro w
  rw [decode, select_error_iff, Fields.legal_eq_false_iff, toNat_fieldsOf_group, group0Legal_fieldsOf_eq_false_iff,
    group8Legal_fieldsOf_eq_false_iff, groupELegal_fieldsOf_eq_false_iff, groupFLegal_fieldsOf_eq_false_iff]

end Sys2Proof
end

section
/-! PROOFS. The execution cycle (40_execution_cycle.md R160 to R173). Each phase of `step()` is said once: the key-wait,
the fetch, what an instruction step does with what was fetched, and the end of the step. The statements put the phases
together. -/

namespace Sys2Proof.Machine

/-! ### The key-wait phase (R162 to R164) -/

/-- The state a key-wait for `r` leaves when key `k` resolves it (R163). -/
def State.keyStored (s : State) (r : Reg) (k : Key) : State := { s.setV r (keyByte k) with kwt := none }

/-- Key `k` is held and no lower one is: the key the scan finds (R162, D6). -/
def State.LeastHeld (s : State) (k : Key) : Prop := s.held k = true ∧ ∀ j : Key, j < k → s.held j = false

/-- A pending key-wait holds the step while no key is held. -/
theorem resolveKeyWait_of_unheld {s : State} {r : Reg} (hwait : s.kwt = some r) (hkeys : ∀ k : Key, s.held k = false) :
    resolveKeyWait s = none := by
  simp only [resolveKeyWait, hwait, (firstHeld_eq_none s).2 hkeys]

/-- The least held key resolves a pending key-wait. -/
theorem resolveKeyWait_of_leastHeld {s : State} {r : Reg} {k : Key} (hwait : s.kwt = some r) (hkey : s.LeastHeld k) :
    resolveKeyWait s = some (s.keyStored r k) := by
  simp only [resolveKeyWait, hwait, (firstHeld_eq_some s k).2 hkey, State.keyStored]

/-- A step that is not held has no key-wait pending, or the least held key resolves it. -/
theorem resolveKeyWait_cases {s u : State} (h : resolveKeyWait s = some u) :
    (s.kwt = none ∧ u = s) ∨ ∃ r k, s.kwt = some r ∧ s.LeastHeld k ∧ u = s.keyStored r k := by
  cases hwait : s.kwt with
  | none =>
    rw [resolveKeyWait_of_none hwait] at h
    cases h
    exact .inl ⟨rfl, rfl⟩
  | some r =>
    cases hscan : firstHeld s.heldNow with
    | none =>
      rw [resolveKeyWait_of_unheld hwait ((firstHeld_eq_none s).1 hscan)] at h
      cases h
    | some k =>
      have hkey : s.LeastHeld k := (firstHeld_eq_some s k).1 hscan
      rw [resolveKeyWait_of_leastHeld hwait hkey] at h
      cases h
      exact .inr ⟨r, k, rfl, hkey, rfl⟩

/-- A held step ends at once. -/
theorem dispatcherStep_of_held {s : State} (hrun : s.halt = none) (hheld : resolveKeyWait s = none) :
    dispatcherStep s = .next s.endStep := by
  rw [dispatcherStep_of_running hrun, hheld]

/-- A step that is not held runs one instruction, from the state the key-wait phase leaves. -/
theorem dispatcherStep_of_resolved {s u : State} (hrun : s.halt = none) (hresolved : resolveKeyWait s = some u) :
    dispatcherStep s = stepInstruction u := by
  rw [dispatcherStep_of_running hrun, hresolved]

/-- Settles O9: the scan finds no key, and the step is held. -/
theorem keyWaitWithoutAKeyHoldsTheStep : Obligations.KeyWaitWithoutAKeyHoldsTheStep := by
  intro s r hrun hsched hwait hkeys
  rw [step_of_empty hsched]
  exact dispatcherStep_of_held hrun (resolveKeyWait_of_unheld hwait hkeys)

/-- Settles O10: both steps run the instruction of the state with the key stored, the one by resolving its key-wait and
the other with none pending. -/
theorem keyWaitStoresTheLeastHeldKeyAndGoesOn : Obligations.KeyWaitStoresTheLeastHeldKeyAndGoesOn := by
  intro s r k hrun hsched hwait hheld hleast
  calc step s = dispatcherStep s := step_of_empty hsched
    _ = stepInstruction (s.keyStored r k) :=
      dispatcherStep_of_resolved hrun (resolveKeyWait_of_leastHeld hwait ⟨hheld, hleast⟩)
    _ = dispatcherStep (s.keyStored r k) :=
      (dispatcherStep_of_resolved (s := s.keyStored r k) hrun (resolveKeyWait_of_none rfl)).symm
    _ = step (s.keyStored r k) := (step_of_empty (s := s.keyStored r k) hsched).symm

/-! ### The halted state (R161) -/

/-- `step()` changes nothing in the halted state. -/
theorem dispatcherStep_of_halted {s : State} {r : FaultRecord} (h : s.halt = some r) : dispatcherStep s = .next s := by
  simp only [dispatcherStep, h, Option.isSome_some, if_true]

/-- A load leaves the halted state as it is. -/
@[simp] theorem loadProgram_halt (bytes : List Byte) (s : State) : (loadProgram bytes s).halt = s.halt := by
  unfold loadProgram
  split <;> rfl

/-- Ticks leave the halted state as it is (R406). -/
@[simp] theorem tickTimers_halt (elapsedMs : Nat) (s : State) : (tickTimers elapsedMs s).halt = s.halt := by
  rw [tickTimers, ticks_frame]

/-- Every operation but reset keeps the fault record of a halted core. -/
theorem runOp_halt_of_halted {op : DriverOp} {s t : State} {r : FaultRecord} (h : s.halt = some r) (hop : op ≠ .reset)
    (hs : runOp op s = .next t) : t.halt = some r := by
  cases op with
  | idle => cases hs; exact h
  | reset => exact absurd rfl hop
  | load bytes =>
    simp only [runOp] at hs
    split at hs
    · cases hs; exact (loadProgram_halt bytes s).trans h
    · cases hs
  | step =>
    rw [runOp, dispatcherStep_of_halted h] at hs
    cases hs
    exact h
  | tick elapsedMs => cases hs; exact (tickTimers_halt elapsedMs s).trans h

/-- Settles O8: the halted check of `step()`, and the other operations one by one. -/
theorem theHaltedStateIsLeftOnlyByReset : Obligations.TheHaltedStateIsLeftOnlyByReset := by
  constructor
  · intro s r hhalt hsched
    rw [step_of_empty hsched]
    exact dispatcherStep_of_halted hhalt
  · intro s t r op rest hhalt hsched hop hs
    rw [step_of_cons hsched] at hs
    exact runOp_halt_of_halted (s := s.withSchedule rest) hhalt hop hs

/-! ### The fetch (R165, R166) -/

/-- A fetch below PROGRAM_LOAD_OFFSET fails, with no address. -/
theorem fetch_below {s : State} (h : s.pc.toNat < Config.loadOffset) : fetch s = .fails .reservedFetch none := by
  rw [fetch, if_pos h]

/-- A fetch that reaches past memory fails, with the first address past it. -/
theorem fetch_past {s : State} (h : Config.memSize ≤ s.pc.toNat + 1) :
    fetch s = .fails .memBounds (some (max s.pc.toNat Config.memSize)) := by
  have hrange : Config.loadOffset < Config.memSize := by decide
  have hlow : ¬ s.pc.toNat < Config.loadOffset := by omega
  have hpast : ¬ (2 = 0 ∨ s.pc.toNat + 2 ≤ Config.memSize) := by omega
  simp only [fetch, if_neg hlow, firstOutOfRange_eq, if_neg hpast]

/-- A byte string of two bytes decodes to the instruction of its word. -/
theorem decode_of_decodeBytes {b0 b1 : Byte} {i : Instr} {rest : List Byte}
    (h : decodeBytes [b0, b1] = .ok (i, rest)) : decode (wordOf b0 b1) = .ok i := by
  cases hdecode : decode (wordOf b0 b1) with
  | ok j => simp only [decodeBytes, hdecode] at h; cases h; rfl
  | error e => simp only [decodeBytes, hdecode] at h; cases h

/-! ### One instruction (R165 to R171) -/

/-- A failed fetch is the fault, with no bytes in its record. -/
theorem stepInstruction_of_fails {s : State} {code : FaultCode} {addr : Option Nat} (h : fetch s = .fails code addr) :
    stepInstruction s = .next (raiseFault code none addr s).endStep := by
  simp only [stepInstruction, h]

/-- A fetched word that is no instruction is the fault, with both bytes in its record. -/
theorem stepInstruction_of_illegal {s : State} {b0 b1 : Byte} {e : Illegal} (hfetch : fetch s = .bytes b0 b1)
    (hdecode : decode (wordOf b0 b1) = .error e) :
    stepInstruction s = .next (raiseFault .unimplemented (some (b0, b1)) none s).endStep := by
  simp only [stepInstruction, hfetch, hdecode]

/-- A fetched instruction is executed and retired. -/
theorem stepInstruction_of_legal {s : State} {b0 b1 : Byte} {i : Instr} (hfetch : fetch s = .bytes b0 b1)
    (hdecode : decode (wordOf b0 b1) = .ok i) : stepInstruction s = mapNext (retire s.pc) (exec i s) := by
  simp only [stepInstruction, hfetch, hdecode]

/-- A next state passed on comes from a next state. -/
theorem exists_of_mapNext_eq_next {f : State → State} {o : Result} {t : State} (h : mapNext f o = .next t) :
    ∃ v, o = .next v ∧ t = f v := by
  cases o with
  | next v => cases h; exact ⟨v, rfl, rfl⟩
  | fault f => cases h
  | refused f => cases h

/-- An instruction step ends in a fault before the execute phase, or in the retired instruction. -/
theorem stepInstruction_cases {s t : State} (h : stepInstruction s = .next t) :
    (∃ code bytes addr, t = (raiseFault code bytes addr s).endStep) ∨
      ∃ i v, exec i s = .next v ∧ t = retire s.pc v := by
  cases hfetch : fetch s with
  | fails code addr =>
    rw [stepInstruction_of_fails hfetch] at h
    cases h
    exact .inl ⟨_, _, _, rfl⟩
  | bytes b0 b1 =>
    cases hdecode : decode (wordOf b0 b1) with
    | error e =>
      rw [stepInstruction_of_illegal hfetch hdecode] at h
      cases h
      exact .inl ⟨_, _, _, rfl⟩
    | ok i =>
      rw [stepInstruction_of_legal hfetch hdecode] at h
      obtain ⟨v, hexec, rfl⟩ := exists_of_mapNext_eq_next h
      exact .inr ⟨i, v, hexec, rfl⟩

/-- Settles O6: the fetch is inside the program range, and its word decodes. -/
theorem stepRunsTheDecodedInstruction : Obligations.StepRunsTheDecodedInstruction := by
  intro s i hruns hlow hhigh hdecode
  rw [step_of_runs hruns]
  exact stepInstruction_of_legal (fetch_inside hlow hhigh) (decode_of_decodeBytes hdecode)

/-- Settles O11, by the two ways a fetch fails. -/
theorem fetchFaultsOutsideTheProgramRange : Obligations.FetchFaultsOutsideTheProgramRange := by
  intro s hruns
  rw [step_of_runs hruns]
  exact ⟨fun hlow => stepInstruction_of_fails (fetch_below hlow),
    fun hpast => stepInstruction_of_fails (fetch_past hpast)⟩

/-- Settles O12: the fetch is inside the program range, and its word is rejected. -/
theorem anIllegalWordFaultsWithItsBytes : Obligations.AnIllegalWordFaultsWithItsBytes := by
  rintro s _ _ e hruns hlow hhigh rfl rfl hdecode
  rw [step_of_runs hruns]
  exact stepInstruction_of_illegal (fetch_inside hlow hhigh) hdecode

/-! ### The end of a step (R171, R172) -/

/-- At or past the boundary the program counter is set 2 below it, with the warning (D17). -/
theorem clampPc_of_le {s : State} (A : Word) (h : s.params.stackRegionOffset ≤ s.pc.toNat) :
    s.clampPc A = (s.warn .pcBoundary A).setPc (BitVec.ofNat 16 (s.params.stackRegionOffset - 2)) := by
  rw [State.clampPc, if_pos h]

/-- Below the boundary the clamp does nothing. -/
theorem clampPc_of_lt {s : State} (A : Word) (h : s.pc.toNat < s.params.stackRegionOffset) : s.clampPc A = s := by
  rw [State.clampPc, if_neg (Nat.not_le.2 h)]

/-- A faulted instruction is not clamped (R172). -/
theorem retire_of_halted {s : State} (A : Word) (h : s.halt ≠ none) : retire A s = s.endStep := by
  rw [retire, if_pos (Option.isSome_iff_ne_none.2 h)]

/-- A completed instruction is clamped. -/
theorem retire_of_running {s : State} (A : Word) (h : s.halt = none) : retire A s = (s.clampPc A).endStep := by
  simp only [retire, h, Option.isSome_none, Bool.false_eq_true, if_false]

/-- Settles O7, by whether the instruction faulted and on which side of the boundary it left the program counter. -/
theorem theEndOfAStepClampsTheProgramCounter : Obligations.TheEndOfAStepClampsTheProgramCounter := by
  intro A t
  constructor
  · intro hrun hpast
    rw [retire_of_running A hrun, clampPc_of_le A hpast]
    rfl
  · intro hstays
    have hretire : retire A t = t.endStep := by
      by_cases hrun : t.halt = none
      · rw [retire_of_running A hrun, clampPc_of_lt A (hstays.resolve_left (not_not_intro hrun))]
      · exact retire_of_halted A hrun
    rw [hretire]
    rfl

/-! ### Precise faults (R172, R404) -/

/-- The end of a step leaves the halted state as it is. -/
@[simp] theorem retire_halt (A : Word) (s : State) : (retire A s).halt = s.halt := by
  unfold retire
  split <;> simp

/-- An instruction step that halts a running core changes nothing but the fault record, which names the program
counter, and the end of the step. -/
theorem stepInstruction_of_faults {s t : State} {r : FaultRecord} (hrun : s.halt = none)
    (h : stepInstruction s = .next t) (hfault : t.halt = some r) :
    r.pc = s.pc ∧ t = State.endStep { s with halt := some r } := by
  have hraised : ∃ code bytes addr, t = (raiseFault code bytes addr s).endStep := by
    obtain hbefore | ⟨i, v, hexec, rfl⟩ := stepInstruction_cases h
    · exact hbefore
    · obtain hkept | ⟨code, bytes, addr, rfl⟩ := exec_halt_cases hexec
      · rw [retire_halt, hkept, hrun] at hfault
        cases hfault
      · exact ⟨code, bytes, addr, retire_of_halted s.pc (by simp)⟩
  obtain ⟨code, bytes, addr, rfl⟩ := hraised
  cases hfault
  exact ⟨rfl, rfl⟩

/-- Settles O13: a held step does not halt the core, and any other faults in its instruction step, from the state
itself or from the one with the key stored. -/
theorem faultsArePrecise : Obligations.FaultsArePrecise := by
  intro s t r hrun hsched hs hfault
  rw [step_of_empty hsched] at hs
  cases hwait : resolveKeyWait s with
  | none =>
    rw [dispatcherStep_of_held hrun hwait] at hs
    cases hs
    rw [endStep_halt, hrun] at hfault
    cases hfault
  | some u =>
    rw [dispatcherStep_of_resolved hrun hwait] at hs
    obtain ⟨hkwt, rfl⟩ | ⟨q, k, hkwt, ⟨hheld, hleast⟩, rfl⟩ := resolveKeyWait_cases hwait
    · obtain ⟨hpc, ht⟩ := stepInstruction_of_faults hrun hs hfault
      exact ⟨hpc, u, ht, .inl ⟨hkwt, rfl⟩⟩
    · obtain ⟨hpc, ht⟩ := stepInstruction_of_faults (s := s.keyStored q k) hrun hs hfault
      exact ⟨hpc, s.keyStored q k, ht, .inr ⟨q, k, hkwt, hheld, hleast, rfl⟩⟩

end Sys2Proof.Machine
end

section
/-! PROOFS. The display instructions (41_display.md R200 to R206). What a draw does to a cell and to VF is said once, in
the statement's own terms (`drawInvertsTheCoveredCells`); drawing twice is two uses of it. -/

namespace Sys2Proof.Machine

/-- Settles O45: the display of the next state is the cleared one. -/
theorem clearZeroesEveryCell : Obligations.ClearZeroesEveryCell :=
  ⟨by decide, fun _ => ⟨_, rfl, Display.cell_clear, rfl⟩⟩

/-! ### The cells a sprite covers (R202, R203) -/

/-- The row of the sprite that lies on row `r` of the display is the one that stands as far below the left top. -/
theorem spriteCovers_iff_exists_row {s : State} {x y : Reg} {n : Nibble} {r : Fin 32} {c : Fin 64} :
    s.spriteCovers x y n r c ↔ ∃ k < n.toNat, r = wrapRow ((s.getV y).toNat + k) ∧
      rowCovers (s.getV x).toNat (s.mem.read (s.baseAddr + k)) c := by
  have hn : n.toNat < 16 := n.isLt
  constructor
  · rintro ⟨hrow, hbit⟩
    exact ⟨_, hrow, (eq_wrapRow_iff _ _ (by omega) r).2 rfl, hbit⟩
  · rintro ⟨k, hk, hr, hbit⟩
    obtain rfl : rowsDown (s.getV y).toNat r = k := (eq_wrapRow_iff _ k (by omega) r).1 hr
    exact ⟨hk, hbit⟩

/-- The cells covered depend on the place, on I and on memory only. -/
theorem spriteCovers_congr {s t : State} {x y : Reg} (hx : t.getV x = s.getV x) (hy : t.getV y = s.getV y)
    (hbase : t.baseAddr = s.baseAddr) (hmem : t.mem = s.mem) (n : Nibble) (r : Fin 32) (c : Fin 64) :
    t.spriteCovers x y n r c ↔ s.spriteCovers x y n r c := by
  rw [State.spriteCovers, State.spriteCovers, hx, hy, hbase, hmem]

/-- A sprite row covers some column exactly when it has a set bit: bit `i` lies `7 - i` right of the left end. -/
theorem exists_rowCovers_iff (vx : Nat) (b : Byte) : (∃ c, rowCovers vx b c) ↔ b ≠ 0 := by
  constructor
  · rintro ⟨c, -, hbit⟩ rfl
    simp at hbit
  · intro hb
    obtain ⟨i, hi, hbit⟩ : ∃ i < 8, b.getLsbD i = true := by
      by_contra! hnone
      exact hb (BitVec.eq_of_getLsbD_eq fun i hi => by simpa using hnone i hi)
    have hcol : colsRight vx (wrapCol (vx + (7 - i))) = 7 - i := (eq_wrapCol_iff vx _ (by omega) _).1 rfl
    refine ⟨wrapCol (vx + (7 - i)), ?_, ?_⟩ <;> rw [hcol]
    · omega
    · rwa [show 7 - (7 - i) = i by omega]

/-- A sprite covers some cell exactly when one of its rows has a set bit. -/
theorem exists_spriteCovers_iff (s : State) (x y : Reg) (n : Nibble) :
    (∃ r c, s.spriteCovers x y n r c) ↔ ∃ k < n.toNat, s.mem.read (s.baseAddr + k) ≠ 0 := by
  simp only [spriteCovers_iff_exists_row, ← exists_rowCovers_iff (s.getV x).toNat]
  constructor
  · rintro ⟨-, c, k, hk, -, hrow⟩
    exact ⟨k, hk, c, hrow⟩
  · rintro ⟨k, hk, c, hrow⟩
    exact ⟨_, c, k, hk, rfl, hrow⟩

/-! ### One draw (R201 to R206) -/

/-- A drawn sprite: it inverts exactly the cells it covers, and collides exactly on a set one. -/
theorem drawn_spec (s : State) (x y : Reg) (n : Nibble) :
    (∀ r c, (s.drawn x y n).1.cell r c ≠ s.disp.cell r c ↔ s.spriteCovers x y n r c) ∧
    ((s.drawn x y n).2 = true ↔ ∃ r c, s.spriteCovers x y n r c ∧ s.disp.cell r c = true) := by
  have hrows : (s.mem.readBytes s.baseAddr n.toNat).length ≤ 32 := by
    have := n.isLt
    rw [Memory.readBytes_length]
    omega
  obtain ⟨hcells, hcollides⟩ := plotRows_spec (s.disp, false) (s.getV x).toNat (s.getV y).toNat _ hrows
  simp only [Memory.readBytes_getElem, Memory.readBytes_length, exists_prop, Bool.false_eq_true, false_or]
    at hcells hcollides
  refine ⟨fun r c => (hcells r c).trans spriteCovers_iff_exists_row.symm, hcollides.trans ?_⟩
  simp only [spriteCovers_iff_exists_row]
  constructor
  · rintro ⟨k, hk, c, hrow, hset⟩
    exact ⟨_, c, ⟨k, hk, rfl, hrow⟩, hset⟩
  · rintro ⟨_, c, ⟨k, hk, rfl, hrow⟩, hset⟩
    exact ⟨k, hk, c, hrow, hset⟩

/-- A draw with its rows in memory completes. -/
theorem exec_drw_inside {s : State} {n : Nibble} (x y : Reg) (h : ∀ k < n.toNat, s.baseAddr + k < 4096) :
    exec (.drw x y n) s =
      .next (State.setVF { s.advance with disp := (s.drawn x y n).1 } (flagByte (s.drawn x y n).2)) := by
  simp only [exec, execDrw, accessThroughI, (firstOutOfRange_eq_none s.baseAddr n.toNat).2 h]

/-- A flag byte is 1 exactly for true. -/
@[simp] theorem flagByte_eq_one_iff (b : Bool) : flagByte b = 1 ↔ b = true := by cases b <;> decide

/-- A flag byte is 1 or 0. -/
theorem flagByte_eq_one_or_zero (b : Bool) : flagByte b = 1 ∨ flagByte b = 0 := by cases b <;> decide

/-- Settles O46: the next state has the drawn cells and the collision in VF. -/
theorem drawInvertsTheCoveredCells : Obligations.DrawInvertsTheCoveredCells := by
  intro x y n s hrows
  obtain ⟨hcells, hcollides⟩ := drawn_spec s x y n
  refine ⟨_, exec_drw_inside x y hrows, hcells, ?_, ?_, ?_, rfl⟩
  · rw [getV_setVF, if_pos rfl]
    exact flagByte_eq_one_or_zero _
  · rw [getV_setVF, if_pos rfl, flagByte_eq_one_iff]
    exact hcollides
  · intro r hr
    rw [getV_setVF, if_neg hr]
    rfl

/-! ### Two draws -/

/-- Settles O47: the first draw leaves the place, I and memory as they were, so the second covers the same cells; each
of them is inverted twice, and on a clear display they are the cells that the first draw set. -/
theorem drawingTwiceRestoresTheDisplay : Obligations.DrawingTwiceRestoresTheDisplay := by
  intro x y n s t hx hy hrows hfirst
  obtain ⟨t', hfirst', hcells, -, -, hregs, hframe⟩ := drawInvertsTheCoveredCells x y n s hrows
  obtain rfl : t = t' := by rw [hfirst'] at hfirst; cases hfirst; rfl
  have hmem : t.mem = s.mem := by rw [hframe]
  have hbase : t.baseAddr = s.baseAddr := by rw [hframe]; rfl
  obtain ⟨u, hsecond, hcells', -, hvf, -, -⟩ := drawInvertsTheCoveredCells x y n t (hbase.symm ▸ hrows)
  simp only [spriteCovers_congr (hregs x hx) (hregs y hy) hbase hmem] at hcells' hvf
  refine ⟨u, hsecond, Display.ext_cell fun r c => ?_, fun hclear => ?_⟩
  · by_cases hcovered : s.spriteCovers x y n r c
    · have honce := (hcells r c).2 hcovered
      have htwice := (hcells' r c).2 hcovered
      rw [Bool.eq_not.2 htwice, Bool.eq_not.2 honce, Bool.not_not]
    · have honce := not_not.1 (mt (hcells r c).1 hcovered)
      have htwice := not_not.1 (mt (hcells' r c).1 hcovered)
      exact htwice.trans honce
  · have hset : ∀ r c, t.disp.cell r c = true ↔ s.spriteCovers x y n r c := fun r c => by
      rw [← hcells r c, hclear r c, Bool.ne_false_iff]
    simp only [hvf, hset, and_self]
    exact exists_spriteCovers_iff s x y n

end Sys2Proof.Machine
end

section
/-! PROOFS. Control flow (42_control_flow.md). Each case of a skip, a call and a return is said once, as an equation for
the next state; a return after a call is then the call's statement followed by the return's. -/

namespace Sys2Proof.Machine

/-! ### Jumps (R231, R237) -/

/-- A 12-bit address and a byte have a sum that fits in 16 bits (R237). -/
theorem toNat_zextAddr_add_zextByte (a : Addr) (b : Byte) :
    (zextAddr a + zextByte b).toNat = a.toNat + b.toNat := by
  have ha := a.isLt
  have hb := b.isLt
  rw [BitVec.toNat_add, toNat_zextAddr, toNat_zextByte]
  omega

/-- Settles O33: the target overwrites the advance. -/
theorem jumpsReplaceTheProgramCounter : Obligations.JumpsReplaceTheProgramCounter := fun nnn s =>
  ⟨⟨_, rfl, toNat_zextAddr nnn, rfl⟩, ⟨_, rfl, toNat_zextAddr_add_zextByte nnn (s.getV 0), rfl⟩⟩

/-! ### Skips (R174, R233 to R236) -/

/-- A skip after the advance: 4 bytes on when its condition holds, 2 when not (R174). -/
theorem advance_skipIf (s : State) (c : Bool) :
    s.advance.skipIf c = { s with pc := if c then s.pc + 4 else s.pc + 2 } := by
  rw [← add_two_two]
  rfl

/-- A skip on equal bytes. -/
theorem advance_skipIf_beq (s : State) (a b : Byte) :
    s.advance.skipIf (a == b) = { s with pc := if a.toNat = b.toNat then s.pc + 4 else s.pc + 2 } := by
  simp only [advance_skipIf, beq_iff_eq, BitVec.toNat_inj]

/-- A skip on different bytes. -/
theorem advance_skipIf_bne (s : State) (a b : Byte) :
    s.advance.skipIf (a != b) = { s with pc := if a.toNat = b.toNat then s.pc + 2 else s.pc + 4 } := by
  simp only [advance_skipIf, bne_iff_ne, ite_not, BitVec.toNat_inj]

/-- Settles O34, by the two skips with the immediate as the second byte. -/
theorem immediateSkips : Obligations.ImmediateSkips := fun x kk s =>
  ⟨congrArg Host.Outcome.next (advance_skipIf_beq s (s.getV x) kk),
    congrArg Host.Outcome.next (advance_skipIf_bne s (s.getV x) kk)⟩

/-- Settles O35, by the two skips with V[y] as the second byte; no meaning reads `n`. -/
theorem registerSkipsIgnoreN : Obligations.RegisterSkipsIgnoreN := fun x y _ s =>
  ⟨congrArg Host.Outcome.next (advance_skipIf_beq s (s.getV x) (s.getV y)),
    congrArg Host.Outcome.next (advance_skipIf_bne s (s.getV x) (s.getV y))⟩

/-! ### Calls and returns (R230, R232) -/

/-- A call with a free slot. -/
theorem exec_call_of_lt (nnn : Addr) (s : State) (h : s.sp.val < 16) :
    exec (.call nnn) s = .next { s with
      pc := zextAddr nnn, sp := ⟨s.sp.val + 1, Nat.succ_lt_succ h⟩
      stack := s.stack.set s.sp.val (s.pc + 2) h } := by
  simp only [exec, execCall, pushPc_of_lt s.advance s.pc h]
  rfl

/-- A call with every slot in use (D15). -/
theorem exec_call_of_full (nnn : Addr) (s : State) (h : s.sp.val = 16) :
    exec (.call nnn) s = .next ((s.warn .stackOverflow s.pc).setPc (zextAddr nnn)) := by
  simp only [exec, execCall, pushPc_of_full s.advance s.pc h]
  rfl

/-- A return with a slot in use. -/
theorem exec_ret_of_pos (s : State) (h : 0 < s.sp.val) :
    exec .ret s = .next { s with
      pc := s.stack[s.sp.val - 1]'(by have := s.sp.isLt; omega)
      sp := ⟨s.sp.val - 1, by have := s.sp.isLt; omega⟩ } := by
  simp only [exec, execRet, popPc_of_pos s.advance s.pc h]
  rfl

/-- A return with no slot in use (D16). -/
theorem exec_ret_of_zero (s : State) (h : s.sp.val = 0) :
    exec .ret s = .next (s.advance.warn .stackUnderflow s.pc) := by
  rw [exec, execRet, popPc_of_zero s.advance s.pc h]

/-- Settles O36, by the case of the free slot and the case of the full stack. -/
theorem callPushesTheReturnAddress : Obligations.CallPushesTheReturnAddress := by
  intro nnn s
  constructor
  · intro hfree
    refine ⟨_, exec_call_of_lt nnn s hfree, toNat_zextAddr nnn, rfl, Vector.getElem_set_self hfree, ?_, rfl⟩
    intro j hj
    exact Vector.getElem_set_ne hfree j.isLt hj.symm
  · intro hfull
    exact ⟨_, exec_call_of_full nnn s hfull, toNat_zextAddr nnn, rfl⟩

/-- Settles O37, by the case of the slot in use and the case of the empty stack. -/
theorem returnPopsTheTopSlot : Obligations.ReturnPopsTheTopSlot := by
  intro s
  constructor
  · intro j hj
    have htop : s.sp.val - 1 = j.val := by omega
    refine ⟨_, exec_ret_of_pos s (by omega), ?_, htop, rfl⟩
    simp only [htop, Fin.getElem_fin]
  · exact exec_ret_of_zero s

/-- Settles O38: the call leaves its return address in the slot below its `sp` (O36), which is the slot the return
pops (O37). -/
theorem callThenReturnComesBack : Obligations.CallThenReturnComesBack := by
  intro nnn s t u hfree hcall hsp hstack
  obtain ⟨t', hcall', -, hpushed, hslot, -, -⟩ := (callPushesTheReturnAddress nnn s).1 hfree
  obtain rfl : t = t' := Host.Outcome.next.inj (hcall.symm.trans hcall')
  obtain ⟨v, hret, hpc, hpopped, -⟩ := (returnPopsTheTopSlot u).1 ⟨s.sp.val, hfree⟩ (hsp ▸ hpushed)
  refine ⟨v, hret, ?_, Fin.ext hpopped⟩
  rw [hpc, hstack]
  exact hslot

end Sys2Proof.Machine
end

section
/-! PROOFS. Registers and arithmetic (43_alu.md R270 to R281). The frames are those of `exec_getV_of_notMem`; each flag
and each result is read as a number once; and the two orders of a flag and a result (the flag last in 8xy4, 8xy5 and
8xy7, first in the shifts) are told apart by what VF reads afterwards. -/

namespace Sys2Proof.Machine

/-! ### The frame and the registers read back -/

/-- An instruction that changes the register file only, and goes on to the next instruction, has the frame of the
registers it writes (R33). -/
theorem onlyRegsChange_of_exec {i : Instr} {s t : State} (h : exec i s = .next t)
    (hframe : t = { s with V := t.V, pc := s.pc + 2 }) : OnlyRegsChange s t (writtenRegs i) :=
  ⟨hframe, fun _ => exec_getV_of_notMem h⟩

theorem getV_setV_of_ne (s : State) {r q : Reg} (v : Byte) (h : q ≠ r) : (s.setV r v).getV q = s.getV q := by
  rw [getV_setV, if_neg h]

@[simp] theorem getV_setVF_same (s : State) (f : Byte) : (s.setVF f).getV 15 = f := getV_setV_same s 15 f

theorem getV_setVF_of_ne (s : State) {q : Reg} (f : Byte) (h : q ≠ 15) : (s.setVF f).getV q = s.getV q :=
  getV_setV_of_ne s f h

/-! ### The flags and the results as numbers -/

theorem flagByte_decide (p : Prop) [Decidable p] : flagByte (decide p) = if p then 1 else 0 := by
  by_cases h : p <;> simp [flagByte, h]

theorem carryFlag_eq (a b : Byte) : carryFlag a b = if a.toNat + b.toNat > 255 then 1 else 0 := flagByte_decide _

theorem noBorrowFlag_eq (a b : Byte) : noBorrowFlag a b = if a.toNat ≥ b.toNat then 1 else 0 := flagByte_decide _

theorem toNat_lowBitOut (a : Byte) : (lowBitOut a).toNat = a.toNat % 2 := by
  rw [lowBitOut, BitVec.toNat_and]
  exact Nat.and_one_is_mod a.toNat

/-- The mask 0x80 keeps bit 7 alone, which is set exactly in the upper half of the bytes (R280). -/
theorem and_highBit_ne_zero_iff (a : Byte) : a &&& 0x80 ≠ 0 ↔ 128 ≤ a.toNat := by
  have hmask : a &&& 0x80 = if a.getLsbD 7 then 0x80 else 0 := BitVec.and_twoPow a 7
  have hbit : a.getLsbD 7 = decide (128 ≤ a.toNat) := BitVec.msb_eq_decide a
  rw [hmask, hbit]
  simp

theorem toNat_highBitOut (a : Byte) : (highBitOut a).toNat = a.toNat / 128 := by
  have ha := a.isLt
  simp only [highBitOut, flagByte_decide, and_highBit_ne_zero_iff]
  split_ifs
  · change 1 = a.toNat / 128
    omega
  · change 0 = a.toNat / 128
    omega

theorem toNat_byte_sub (a b : Byte) : (a - b).toNat = (a.toNat + 256 - b.toNat) % 256 := by
  have hb := b.isLt
  rw [BitVec.toNat_sub]
  omega

theorem toNat_byte_ushiftRight_one (a : Byte) : (a >>> 1).toNat = a.toNat / 2 := by
  rw [BitVec.toNat_ushiftRight, Nat.shiftRight_one]

theorem toNat_byte_shiftLeft_one (a : Byte) : (a <<< 1).toNat = 2 * a.toNat % 256 := by
  rw [BitVec.toNat_shiftLeft, Nat.shiftLeft_eq]
  omega

/-! ### The shifts (R278, R280): the flag first -/

/-- The flag write, then V[x] mapped as that write left it: the order of the two shifts (D8). -/
def State.flagThenMap (s : State) (x : Reg) (f : Byte) (op : Byte → Byte) : State :=
  (s.setVF f).setV x (op ((s.setVF f).getV x))

theorem exec_shr (x y : Reg) (s : State) :
    exec (.shr x y) s = .next (s.advance.flagThenMap x (lowBitOut (s.getV x)) (· >>> 1)) := rfl

theorem exec_shl (x y : Reg) (s : State) :
    exec (.shl x y) s = .next (s.advance.flagThenMap x (highBitOut (s.getV x)) (· <<< 1)) := rfl

/-- A destination other than VF is mapped from its old value. -/
theorem getV_flagThenMap_of_ne (s : State) {x : Reg} (f : Byte) (op : Byte → Byte) (h : x ≠ 15) :
    (s.flagThenMap x f op).getV x = op (s.getV x) := by
  rw [State.flagThenMap, getV_setV_same, getV_setVF_of_ne s f h]

/-- The flag stays in VF beside a destination other than VF. -/
theorem getV_flagThenMap_vf_of_ne (s : State) {x : Reg} (f : Byte) (op : Byte → Byte) (h : x ≠ 15) :
    (s.flagThenMap x f op).getV 15 = f := by
  rw [State.flagThenMap, getV_setV_of_ne _ _ h.symm, getV_setVF_same]

/-- With VF as the destination the flag itself is mapped. -/
theorem getV_flagThenMap_vf (s : State) (f : Byte) (op : Byte → Byte) : (s.flagThenMap 15 f op).getV 15 = op f := by
  rw [State.flagThenMap, getV_setV_same, getV_setVF_same]

/-- Settles O30: for x = F it is the flag, at most 1, that is halved. -/
theorem shiftRightHalvesAndIgnoresY : Obligations.ShiftRightHalvesAndIgnoresY := by
  intro x y s
  refine ⟨_, exec_shr x y s, onlyRegsChange_of_exec (exec_shr x y s) rfl, fun hx => ⟨?_, ?_⟩, ?_⟩
  · rw [getV_flagThenMap_of_ne _ _ _ hx, getV_advance, toNat_byte_ushiftRight_one]
  · rw [getV_flagThenMap_vf_of_ne _ _ _ hx, toNat_lowBitOut]
  · rintro rfl
    apply BitVec.eq_of_toNat_eq
    rw [getV_flagThenMap_vf, toNat_byte_ushiftRight_one, toNat_lowBitOut]
    exact Nat.div_eq_of_lt (Nat.mod_lt _ Nat.two_pos)

/-- Settles O31: for x = F it is the flag, at most 1, that is doubled. -/
theorem shiftLeftDoublesAndIgnoresY : Obligations.ShiftLeftDoublesAndIgnoresY := by
  intro x y s
  refine ⟨_, exec_shl x y s, onlyRegsChange_of_exec (exec_shl x y s) rfl, fun hx => ⟨?_, ?_⟩, ?_⟩
  · rw [getV_flagThenMap_of_ne _ _ _ hx, getV_advance, toNat_byte_shiftLeft_one]
  · rw [getV_flagThenMap_vf_of_ne _ _ _ hx, toNat_highBitOut]
  · rintro rfl
    have hvf := (s.getV 15).isLt
    rw [getV_flagThenMap_vf, toNat_byte_shiftLeft_one, toNat_highBitOut]
    omega

/-! ### Loads, sums and bitwise operations (R270 to R275) -/

/-- Settles O23: the immediate is what the one register written reads. -/
theorem loadImmediateWritesTheByte : Obligations.LoadImmediateWritesTheByte := fun x kk s =>
  ⟨decodeOfEncodeIsTheInstruction (.ldImm x kk), _, rfl, getV_setV_same s.advance x kk,
    onlyRegsChange_of_exec (i := .ldImm x kk) rfl rfl⟩

/-- Settles O24: the sum of bytes is the sum modulo 256. -/
theorem addImmediateWrapsWithoutAFlag : Obligations.AddImmediateWrapsWithoutAFlag := by
  intro x kk s
  refine ⟨decodeOfEncodeIsTheInstruction (.addImm x kk), _, rfl, ?_,
    onlyRegsChange_of_exec (i := .addImm x kk) rfl rfl⟩
  rw [getV_setV_same, BitVec.toNat_add]

/-- Settles O25: the old V[y] is what the one register written reads. -/
theorem loadRegisterCopies : Obligations.LoadRegisterCopies := fun x y s =>
  ⟨decodeOfEncodeIsTheInstruction (.ldReg x y), _, rfl, getV_setV_same s.advance x (s.getV y),
    onlyRegsChange_of_exec (i := .ldReg x y) rfl rfl⟩

/-- Settles O26: each writes V[x] alone, with the operation of `BitVec` that works bit by bit. -/
theorem bitwiseOperationsLeaveVFAlone : Obligations.BitwiseOperationsLeaveVFAlone := by
  intro x y s
  refine ⟨⟨_, rfl, onlyRegsChange_of_exec (i := .orReg x y) rfl rfl, fun k _ => ?_⟩,
    ⟨_, rfl, onlyRegsChange_of_exec (i := .andReg x y) rfl rfl, fun k _ => ?_⟩,
    ⟨_, rfl, onlyRegsChange_of_exec (i := .xorReg x y) rfl rfl, fun k _ => ?_⟩⟩
  · rw [getV_setV_same, BitVec.getLsbD_or]
  · rw [getV_setV_same, BitVec.getLsbD_and]
  · rw [getV_setV_same, BitVec.getLsbD_xor]

/-! ### Sums and differences (R276, R277, R279): the flag last -/

/-- A result in a destination other than VF stays beside the flag written after it. -/
theorem getV_setVF_setV_of_ne (s : State) {x : Reg} (v f : Byte) (h : x ≠ 15) :
    ((s.setV x v).setVF f).getV x = v := by
  rw [getV_setVF_of_ne _ f h, getV_setV_same]

/-- Settles O27: the sum modulo 256, and the carry of the untruncated sum as the last write. -/
theorem addRegisterSetsTheCarry : Obligations.AddRegisterSetsTheCarry := by
  intro x y s
  refine ⟨decodeOfEncodeIsTheInstruction (.addReg x y), _, rfl, fun hx => ?_, ?_,
    onlyRegsChange_of_exec (i := .addReg x y) rfl rfl⟩
  · rw [getV_setVF_setV_of_ne _ _ _ hx, BitVec.toNat_add]
  · rw [getV_setVF_same, carryFlag_eq]

/-- The difference `a - b` written to V[x] and then its no-borrow to VF: what the two subtractions share. -/
theorem getV_difference (s : State) (x : Reg) (a b : Byte) :
    (x ≠ 15 → (((s.setV x (a - b)).setVF (noBorrowFlag a b)).getV x).toNat = (a.toNat + 256 - b.toNat) % 256) ∧
    ((s.setV x (a - b)).setVF (noBorrowFlag a b)).getV 15 = if a.toNat ≥ b.toNat then 1 else 0 := by
  constructor
  · intro hx
    rw [getV_setVF_setV_of_ne _ _ _ hx, toNat_byte_sub]
  · rw [getV_setVF_same, noBorrowFlag_eq]

/-- Settles O28: the difference V[x] - V[y]. -/
theorem subtractSetsNoBorrow : Obligations.SubtractSetsNoBorrow := by
  intro x y s
  obtain ⟨hdifference, hflag⟩ := getV_difference s.advance x (s.getV x) (s.getV y)
  exact ⟨decodeOfEncodeIsTheInstruction (.sub x y), _, rfl, hdifference, hflag,
    onlyRegsChange_of_exec (i := .sub x y) rfl rfl⟩

/-- Settles O29: the difference V[y] - V[x]. -/
theorem subtractReversedSetsNoBorrow : Obligations.SubtractReversedSetsNoBorrow := by
  intro x y s
  obtain ⟨hdifference, hflag⟩ := getV_difference s.advance x (s.getV y) (s.getV x)
  exact ⟨decodeOfEncodeIsTheInstruction (.subn x y), _, rfl, hdifference, hflag,
    onlyRegsChange_of_exec (i := .subn x y) rfl rfl⟩

/-! ### The random byte (R281, R442) -/

/-- A listed answer is the next draw, so every byte is a draw under some answers (D24). -/
theorem exists_randomByte_eq (b : Byte) (s : State) : ∃ e : Inputs, State.randomByte { s with inputs := e } = b :=
  ⟨{ s.inputs with rands := [b] }, rfl⟩

/-- Settles O32: the draw masked bit by bit, in the frame of RND's one register and its one draw. -/
theorem randomByteIsMaskedAndFree : Obligations.RandomByteIsMaskedAndFree := by
  refine ⟨fun x kk s => ⟨_, rfl, fun k _ => ?_, ⟨rfl, fun _ hr => ?_⟩, rfl⟩, exists_randomByte_eq⟩
  · rw [getV_setV_same, BitVec.getLsbD_and]
  · exact exec_getV_of_notMem (i := .rnd x kk) (s := s) rfl hr

end Sys2Proof.Machine
end

section
/-! PROOFS. The address register and memory (44_index_memory.md R330 to R335). The two stores are one operation, bytes
written from I up with their bounds check, said once as `State.storedAtI`; each then says which bytes it stores. -/

namespace Sys2Proof.Machine

/-! ### The address register (R330 to R332) -/

/-- Settles O39: the operand is what I reads. -/
theorem loadAddressRegister : Obligations.LoadAddressRegister := fun nnn _ =>
  ⟨decodeOfEncodeIsTheInstruction (.ldI nnn), _, rfl, toNat_zextAddr nnn, rfl⟩

/-- A glyph's address is five times the value, which no byte makes wrap (R332, D39). -/
theorem toNat_glyphAddr (v : Byte) : (glyphAddr v).toNat = 5 * v.toNat := by
  have hv := v.isLt
  rw [glyphAddr, BitVec.toNat_ofNat, Config.fontBase, Config.glyphSize]
  omega

/-- Settles O40: the sum of words is the sum modulo 65536 (D11), and a glyph's address is five times its value. -/
theorem addressRegisterArithmetic : Obligations.AddressRegisterArithmetic := by
  intro x s
  refine ⟨⟨_, rfl, ?_, rfl⟩, ⟨_, rfl, toNat_glyphAddr (s.getV x), rfl⟩⟩
  rw [setI_I, BitVec.toNat_add, toNat_zextByte]

/-! ### Stores through I (R333, R334) -/

/-- The next state of a store of `bytes` from I up: I is not advanced (D10). -/
def State.storedAtI (s : State) (bytes : List Byte) : State :=
  { s.advance with mem := s.mem.writeBytes s.baseAddr bytes }

/-- A store changes memory, and the program counter to the next instruction. -/
theorem storedAtI_frame (s : State) (bytes : List Byte) :
    s.storedAtI bytes = { s with mem := (s.storedAtI bytes).mem, pc := s.pc + 2 } := rfl

/-- A store leaves every byte outside its range as it was. -/
theorem read_storedAtI_other (s : State) (bytes : List Byte) {a : Nat}
    (ha : a < s.baseAddr ∨ s.baseAddr + bytes.length ≤ a) : (s.storedAtI bytes).mem.read a = s.mem.read a :=
  Memory.read_writeBytes_other s.mem s.baseAddr a bytes ha

/-- A store within a memory in canonical form reads back. -/
theorem read_storedAtI {s : State} {bytes : List Byte} (hwf : s.mem.wf = true)
    (hin : s.baseAddr + bytes.length ≤ 4096) {k : Nat} (hk : k < bytes.length) :
    (s.storedAtI bytes).mem.read (s.baseAddr + k) = bytes[k] :=
  Memory.read_writeBytes hwf s.baseAddr bytes hin hk

/-- LD B with its three bytes in memory. -/
theorem exec_ldB_inside (x : Reg) {s : State} (h : s.baseAddr + 2 < 4096) :
    exec (.ldB x) s = .next (s.storedAtI (bcdDigits (s.getV x))) :=
  accessThroughI_inside _ _ _ _ (.inr h)

/-- LD [I], Vx with its range in memory. -/
theorem exec_ldMemVx_inside {x : Reg} {s : State} (h : s.baseAddr + x.val < 4096) :
    exec (.ldMemVx x) s = .next (s.storedAtI (s.regsUpTo x)) :=
  accessThroughI_inside _ _ _ _ (.inr h)

/-- The hundreds, tens and ones make up the value, the tens and ones being digits. -/
theorem bcdDigits_spec (v : Byte) : ∃ hundreds tens ones : Byte, bcdDigits v = [hundreds, tens, ones] ∧
    hundreds.toNat * 100 + tens.toNat * 10 + ones.toNat = v.toNat ∧ tens.toNat ≤ 9 ∧ ones.toNat ≤ 9 := by
  have hv := v.isLt
  refine ⟨_, _, _, rfl, ?_⟩
  simp only [BitVec.toNat_ofNat]
  omega

/-- Settles O41: the bytes stored are the digits of V[x]. -/
theorem storeDecimalWritesThreeDigits : Obligations.StoreDecimalWritesThreeDigits := by
  intro x s hin
  obtain ⟨hundreds, tens, ones, hdigits, hvalue⟩ := bcdDigits_spec (s.getV x)
  have hexec := exec_ldB_inside x hin
  rw [hdigits] at hexec
  refine ⟨_, hexec, storedAtI_frame s _, fun a ha => read_storedAtI_other s _ ha, fun hwf => ?_⟩
  have hread {k : Nat} (hk : k < 3) := read_storedAtI (bytes := [hundreds, tens, ones]) hwf hin hk
  have hhundreds := hread (k := 0) (by decide)
  have htens := hread (k := 1) (by decide)
  have hones := hread (k := 2) (by decide)
  simp only [Nat.add_zero] at hhundreds
  rw [hhundreds, htens, hones]
  exact hvalue

/-- How many bytes V0 to Vx are. -/
@[simp] theorem length_regsUpTo (s : State) (x : Reg) : (s.regsUpTo x).length = x.val + 1 := by
  simp [State.regsUpTo, regCount, Nat.succ_le_of_lt x.isLt]

/-- The byte at a register's place among V0 to Vx is its value. -/
theorem getElem_regsUpTo (s : State) {x r : Reg} (h : r.val < (s.regsUpTo x).length) :
    (s.regsUpTo x)[r.val] = s.getV r := by
  simp only [State.regsUpTo, List.getElem_take, Vector.getElem_toList, State.getV]

/-- Settles O42: the bytes stored are V0 to Vx. -/
theorem storeRegistersWritesTheRange : Obligations.StoreRegistersWritesTheRange := by
  intro x s hin
  refine ⟨_, exec_ldMemVx_inside hin, storedAtI_frame s _, fun a ha => ?_, fun hwf r hr => ?_⟩
  · apply read_storedAtI_other
    rw [length_regsUpTo]
    omega
  · have hplace : r.val < (s.regsUpTo x).length := by
      rw [length_regsUpTo]
      exact Nat.lt_succ_of_le hr
    rw [read_storedAtI hwf (by rw [length_regsUpTo]; omega) hplace, getElem_regsUpTo]

/-! ### Loads through I (R335) -/

/-- LD Vx, [I] with its range in memory. -/
theorem exec_ldVxMem_inside {x : Reg} {s : State} (h : s.baseAddr + x.val < 4096) :
    exec (.ldVxMem x) s = .next { s.advance with V := loadRegs s.V x s.mem s.baseAddr } :=
  accessThroughI_inside _ _ _ _ (.inr h)

/-- Settles O43: each register is read from its place in the range, or is above Vx. -/
theorem loadRegistersReadsTheRange : Obligations.LoadRegistersReadsTheRange := fun _ _ hin =>
  ⟨_, exec_ldVxMem_inside hin, rfl, fun r => Vector.getElem_ofFn r.isLt⟩

end Sys2Proof.Machine
end

section
/-! PROOFS. Keys and timers (45_timers_keys.md R370 to R376). A key skip is said once for a key
number and once for a value above 15. The push, the pop and the access through I each have two cases, told apart by a
piece of the state that is no answer of the environment. -/

namespace Sys2Proof.Machine

/-! ### The key skips (R370, R371) -/

/-- A key skip with a key number in V[x] skips when the key's state is the wanted one. -/
theorem skipOnKey_of_lt (i : Instr) {x : Reg} (wanted : Bool) {s : State} (h : (s.getV x).toNat < 16) :
    skipOnKey i x wanted s = .next (s.advance.skipIf (s.held ⟨(s.getV x).toNat, h⟩ == wanted)) := by
  simp only [skipOnKey, keyOf, dif_pos h]

/-- A key skip with a value above 15 in V[x] raises the fault. -/
theorem skipOnKey_of_gt (i : Instr) {x : Reg} (wanted : Bool) {s : State} (h : 15 < (s.getV x).toNat) :
    skipOnKey i x wanted s = .next (raiseFault .keyRange (some (instrBytes i)) (some (s.getV x).toNat) s) := by
  have hnot : ¬ (s.getV x).toNat < 16 := by omega
  simp only [skipOnKey, keyOf, dif_neg hnot]

/-- Settles O49: SKP wants the key held and SKNP wants it not held. -/
theorem keySkipsFollowTheKey : Obligations.KeySkipsFollowTheKey := by
  intro x s h
  constructor
  · calc exec (.skp x) s
      _ = .next (s.advance.skipIf (s.held ⟨(s.getV x).toNat, h⟩ == true)) := skipOnKey_of_lt (.skp x) true h
      _ = _ := by rw [beq_true, advance_skipIf]
  · calc exec (.sknp x) s
      _ = .next (s.advance.skipIf (s.held ⟨(s.getV x).toNat, h⟩ == false)) := skipOnKey_of_lt (.sknp x) false h
      _ = _ := by rw [advance_skipIf]; cases s.held ⟨(s.getV x).toNat, h⟩ <;> rfl

/-- Settles O50: both skips check the key number first. -/
theorem aKeyAboveFifteenFaults : Obligations.AKeyAboveFifteenFaults := by
  rintro i x s (rfl | rfl) h
  · exact skipOnKey_of_gt (.skp x) true h
  · exact skipOnKey_of_gt (.sknp x) false h

/-! ### The timers and the key-wait (R372 to R375) -/

/-- Settles O51: V[x] is the one register written, and it reads back as the delay timer. -/
theorem readDelayTimer : Obligations.ReadDelayTimer := fun x s =>
  ⟨decodeOfEncodeIsTheInstruction (.ldVxDt x), _, rfl, getV_setV_same s.advance x s.DT,
    onlyRegsChange_of_exec (i := .ldVxDt x) rfl rfl⟩

/-- A write to the sound timer counts one TONE_STOP exactly when it goes from non-zero to zero (R375, R422). -/
theorem setST_toneStops_eq_add (s : State) (v : Byte) :
    (s.setST v).toneStops = s.toneStops + (if s.ST ≠ 0 ∧ v = 0 then 1 else 0) :=
  (apply_ite (s.toneStops + ·) _ 1 0).symm

/-- The tone sounds while the sound timer is not zero (R423). -/
theorem tone_eq_true_iff (s : State) : s.tone = true ↔ s.ST ≠ 0 := bne_iff_ne

/-- Settles O52: each write is one update of the advanced state. -/
theorem timerWritesAndTheKeyWait : Obligations.TimerWritesAndTheKeyWait := fun x s =>
  ⟨rfl, ⟨s.advance.setST (s.getV x), rfl, rfl, setST_toneStops_eq_add s.advance (s.getV x), tone_eq_true_iff _⟩, rfl⟩

/-! ### Other answers of the environment (R376, R442) -/

/-- The state with other answers of the environment. -/
def State.withInputs (s : State) (e : Inputs) : State := { s with inputs := e }

/-- A push tells its cases apart by `sp`. -/
theorem pushPc_withInputs (s : State) (A : Word) (e : Inputs) :
    (s.withInputs e).pushPc A = (s.pushPc A).withInputs e := by
  by_cases hfree : s.sp.val < 16
  · rw [pushPc_of_lt s A hfree]
    exact pushPc_of_lt (s.withInputs e) A hfree
  · have hfull : s.sp.val = 16 := by have := s.sp.isLt; omega
    rw [pushPc_of_full s A hfull]
    exact pushPc_of_full (s.withInputs e) A hfull

/-- A pop tells its cases apart by `sp`. -/
theorem popPc_withInputs (s : State) (A : Word) (e : Inputs) :
    (s.withInputs e).popPc A = (s.popPc A).withInputs e := by
  by_cases hempty : s.sp.val = 0
  · rw [popPc_of_zero s A hempty]
    exact popPc_of_zero (s.withInputs e) A hempty
  · have hpos : 0 < s.sp.val := Nat.pos_of_ne_zero hempty
    rw [popPc_of_pos s A hpos]
    exact popPc_of_pos (s.withInputs e) A hpos

/-- An access tells its cases apart by I, and both its effect and its fault carry the answers along. -/
theorem accessThroughI_withInputs (i : Instr) (count : Nat) (s effect : State) (e : Inputs) :
    accessThroughI i count (s.withInputs e) (effect.withInputs e) =
      mapNext (·.withInputs e) (accessThroughI i count s effect) := by
  by_cases hin : count = 0 ∨ s.baseAddr + count ≤ Config.memSize
  · rw [accessThroughI_inside i count s effect hin]
    exact accessThroughI_inside i count (s.withInputs e) (effect.withInputs e) hin
  · have hpos : 0 < count := by omega
    have hpast : Config.memSize < s.baseAddr + count := by omega
    rw [accessThroughI_past i count s effect hpos hpast]
    exact accessThroughI_past i count (s.withInputs e) (effect.withInputs e) hpos hpast

/-- An instruction that is an access through I, with an effect that carries the answers along, does not see them. -/
theorem exec_withInputs_of_access {i : Instr} {count : Nat} {s effect : State} {e : Inputs}
    (hexec : exec i s = accessThroughI i count s effect)
    (hother : exec i (s.withInputs e) = accessThroughI i count (s.withInputs e) (effect.withInputs e)) :
    exec i (s.withInputs e) = mapNext (·.withInputs e) (exec i s) := by
  rw [hother, accessThroughI_withInputs, hexec]

/-- Settles O22, by the instruction: the accesses through I, the call and the return are the lemmas above, RND and the
key skips are excluded, and every other instruction is one update that reads no answer. -/
theorem otherInstructionsDoNotSeeTheEnvironment : Obligations.OtherInstructionsDoNotSeeTheEnvironment := by
  intro i s e hrnd hskp hsknp
  cases i
  case rnd x kk => exact absurd rfl (hrnd x kk)
  case skp x => exact absurd rfl (hskp x)
  case sknp x => exact absurd rfl (hsknp x)
  case drw | ldB | ldMemVx | ldVxMem => exact exec_withInputs_of_access rfl rfl
  case ret => exact congrArg Host.Outcome.next (popPc_withInputs s.advance s.pc e)
  case call nnn =>
    exact congrArg (fun t => Host.Outcome.next (t.setPc (zextAddr nnn))) (pushPc_withInputs s.advance s.pc e)
  all_goals rfl

end Sys2Proof.Machine
end

section
/-! PROOFS. Faults and the warning log (60_exceptions.md R403 to R410, R414): which instructions fault and when, that
each answers a next state all the same, and that no operation but reset takes an entry from the log. -/

namespace Sys2Proof.Machine

/-! ### Every instruction answers (R414) -/

/-- An access through I answers a next state, inside memory and past it. -/
theorem accessThroughI_answers (i : Instr) (count : Nat) (s effect : State) :
    ∃ t, accessThroughI i count s effect = .next t := by
  unfold accessThroughI
  split <;> exact ⟨_, rfl⟩

/-- A key skip answers a next state, for a key number and for a value above 15. -/
theorem skipOnKey_answers (i : Instr) (x : Reg) (wanted : Bool) (s : State) :
    ∃ t, skipOnKey i x wanted s = .next t := by
  unfold skipOnKey
  split <;> exact ⟨_, rfl⟩

/-- Settles O15: only an access through I and a key skip have a second case, and it answers too. -/
theorem everyInstructionAnswersANextState : Obligations.EveryInstructionAnswersANextState := by
  intro i s
  cases i
  case drw | ldB | ldMemVx | ldVxMem => exact accessThroughI_answers _ _ _ _
  case skp | sknp => exact skipOnKey_answers _ _ _ _
  all_goals exact ⟨_, rfl⟩

/-! ### When an instruction faults (R403) -/

/-- An access through I whose effect leaves the core running halts it exactly when one of its bytes is past memory. -/
theorem accessThroughI_faults_iff {i : Instr} {count : Nat} {s effect t : State}
    (h : accessThroughI i count s effect = .next t) (heffect : effect.halt = none) :
    t.halt ≠ none ↔ ∃ k < count, 4096 ≤ s.I.toNat + k := by
  obtain ⟨hin, rfl⟩ | ⟨hpos, hpast, rfl⟩ := accessThroughI_cases h
  · have hbytes : ¬ ∃ k < count, 4096 ≤ s.I.toNat + k := by
      rintro ⟨k, hk, hpast⟩
      simp only [State.baseAddr, Config.memSize] at hin
      omega
    simp only [heffect, hbytes, ne_eq, not_true]
  · have hlast : ∃ k < count, 4096 ≤ s.I.toNat + k := by
      simp only [State.baseAddr, Config.memSize] at hpast
      exact ⟨count - 1, by omega, by omega⟩
    simp [hlast]

/-- An access through I to the bytes up to the one at I + n halts the core exactly when that last one is past memory. -/
theorem accessThroughI_faults_iff_last {i : Instr} {n : Nat} {s effect t : State}
    (h : accessThroughI i (n + 1) s effect = .next t) (heffect : effect.halt = none) :
    t.halt ≠ none ↔ 4096 ≤ s.I.toNat + n := by
  rw [accessThroughI_faults_iff h heffect]
  exact ⟨fun ⟨_, _, _⟩ => by omega, fun hlast => ⟨n, Nat.lt_succ_self n, hlast⟩⟩

/-- A key skip halts a running core exactly when V[x] is above 15. -/
theorem skipOnKey_faults_iff {i : Instr} {x : Reg} {wanted : Bool} {s t : State}
    (h : skipOnKey i x wanted s = .next t) (hrun : s.halt = none) : t.halt ≠ none ↔ 15 < (s.getV x).toNat := by
  obtain ⟨hkey, c, rfl⟩ | ⟨habove, rfl⟩ := skipOnKey_cases h
  · simp only [skipIf_halt, advance_halt, hrun, ne_eq, not_true, Nat.not_lt.2 (Nat.le_of_lt_succ hkey)]
  · simp [habove]

/-- An instruction of no faulting form leaves the core running (D12, D14). -/
theorem exec_halt_of_not_canFault {i : Instr} {s t : State} (h : exec i s = .next t) (hform : ¬ CanFault i) :
    t.halt = s.halt := by
  obtain ⟨-, -, hhalt, -⟩ := eachPieceOfStateHasItsWriters i s t h
  exact Classical.byContradiction fun hchanged => hform (hhalt hchanged).2

/-- Settles O14. The four accesses fault on their bytes past memory and the two key skips on their key, and the other
instructions do not fault (O20). -/
theorem theExecutePhaseFaultsExactlyHere : Obligations.TheExecutePhaseFaultsExactlyHere := by
  intro i s t hrun h
  cases i
  case drw =>
    rw [accessThroughI_faults_iff h hrun]
    simp
  case ldB | ldMemVx | ldVxMem =>
    rw [accessThroughI_faults_iff_last h hrun]
    simp
  case skp | sknp =>
    rw [skipOnKey_faults_iff h hrun]
    simp
  all_goals
    have hkept : t.halt = none := (exec_halt_of_not_canFault h (by simp [CanFault])).trans hrun
    simp [hkept]

/-! ### The warning log (R409, R410) -/

/-- The end of a step adds to the warning log or leaves it. -/
theorem retire_wlog (A : Word) (s : State) : s.wlog <+: (retire A s).wlog := by
  unfold retire
  split
  · exact List.prefix_refl _
  · exact clampPc_wlog A s

/-- `step()` adds to the warning log or leaves it: an instruction does, and then its end does. -/
theorem dispatcherStep_wlog {s t : State} (h : dispatcherStep s = .next t) : s.wlog <+: t.wlog := by
  obtain ⟨-, rfl⟩ | ⟨-, rfl | ⟨u, hu, hend⟩⟩ := dispatcherStep_cases h
  · exact List.prefix_refl _
  · exact List.prefix_refl _
  · have hlog : u.wlog = s.wlog := by obtain rfl | ⟨r, k, rfl⟩ := hu <;> rfl
    rw [← hlog]
    obtain ⟨code, bytes, addr, rfl⟩ | ⟨i, v, hexec, rfl⟩ := hend
    · exact List.prefix_refl _
    · exact (exec_wlog hexec).trans (retire_wlog u.pc v)

/-- A load adds to the warning log or leaves it (R476). -/
theorem loadProgram_wlog (bytes : List Byte) (s : State) : s.wlog <+: (loadProgram bytes s).wlog := by
  unfold loadProgram
  split
  · exact ⟨_, rfl⟩
  · exact List.prefix_refl _

/-- Ticks leave the warning log as it is (R98). -/
@[simp] theorem tickTimers_wlog (elapsedMs : Nat) (s : State) : (tickTimers elapsedMs s).wlog = s.wlog := by
  rw [tickTimers, ticks_frame]

/-- Every operation but reset adds to the warning log or leaves it. -/
theorem runOp_wlog {op : DriverOp} {s t : State} (hop : op ≠ .reset) (h : runOp op s = .next t) :
    s.wlog <+: t.wlog := by
  cases op with
  | idle => cases h; exact List.prefix_refl _
  | reset => exact absurd rfl hop
  | load bytes =>
    simp only [runOp] at h
    split at h
    · cases h; exact loadProgram_wlog bytes s
    · cases h
  | step => exact dispatcherStep_wlog h
  | tick elapsedMs => cases h; rw [tickTimers_wlog]

/-- Settles O17, by what the driver calls next: `step()` when nothing is scheduled, else the scheduled operation. -/
theorem theWarningLogOnlyGrows : Obligations.TheWarningLogOnlyGrows := by
  intro s t hop h
  cases hsched : s.schedule with
  | nil => exact dispatcherStep_wlog (step_of_empty hsched ▸ h)
  | cons op rest =>
    rw [step_of_cons hsched] at h
    exact runOp_wlog (s := s.withSchedule rest) (by simpa [hsched] using hop) h

end Sys2Proof.Machine
end

section
/-! PROOFS. The Timer Clock (60_exceptions.md R420 to R422, R424). What `n` ticks leave is one closed form, and
`tick_timers` is any number of whole ticks and the remainder that add up to the elapsed time. -/

namespace Sys2Proof.Machine

/-! ### Ticks (R420) -/

/-- What `n` ticks leave: each timer `n` lower and no lower than 0, and one TONE_STOP if ST reaches 0 on the way. -/
def State.ticked (n : Nat) (s : State) : State :=
  { s with
    DT := BitVec.ofNat 8 (s.DT.toNat - n)
    ST := BitVec.ofNat 8 (s.ST.toNat - n)
    toneStops := s.toneStops + (if 0 < s.ST.toNat ∧ s.ST.toNat ≤ n then 1 else 0) }

/-- A timer's value less `n` is the value of the byte that holds it. -/
theorem toNat_ofNat_sub (b : Byte) (n : Nat) : (BitVec.ofNat 8 (b.toNat - n)).toNat = b.toNat - n := by
  rw [BitVec.toNat_ofNat, Nat.mod_eq_of_lt (Nat.lt_of_le_of_lt (Nat.sub_le _ _) b.isLt)]

/-- A tick of a timer: one less unless it is 0. -/
theorem ofNat_toNat_sub_one (b : Byte) : BitVec.ofNat 8 (b.toNat - 1) = if b ≠ 0 then b - 1 else b := by
  split <;> bv_omega

/-- No tick leaves the state as it is. -/
theorem ticked_zero (s : State) : s.ticked 0 = s := by
  have hnone : ¬ (0 < s.ST.toNat ∧ s.ST.toNat ≤ 0) := by omega
  simp only [State.ticked, if_neg hnone, Nat.sub_zero, Nat.add_zero, BitVec.ofNat_toNat, BitVec.setWidth_eq]

/-- The half of a tick that is DT's. -/
theorem tick_DT (s : State) :
    (if s.DT ≠ 0 then { s with DT := s.DT - 1 } else s) = { s with DT := BitVec.ofNat 8 (s.DT.toNat - 1) } := by
  rw [ofNat_toNat_sub_one]
  split <;> rfl

/-- The half of a tick that is ST's, with its TONE_STOP (R422). -/
theorem tick_ST (s : State) :
    (if s.ST ≠ 0 then s.setST (s.ST - 1) else s) =
      { s with
        ST := BitVec.ofNat 8 (s.ST.toNat - 1)
        toneStops := s.toneStops + (if s.ST.toNat = 1 then 1 else 0) } := by
  rw [ofNat_toNat_sub_one]
  split
  next hST =>
    have hlast : s.ST - 1 = 0 ↔ s.ST.toNat = 1 := by constructor <;> intro h <;> bv_omega
    have hstop := setST_toneStops_eq_add s (s.ST - 1)
    simp only [hST, hlast, ne_eq, not_false_eq_true, true_and] at hstop
    rw [← hstop]
    rfl
  next hST =>
    have hzero : s.ST.toNat ≠ 1 := by bv_omega
    simp only [if_neg hzero, Nat.add_zero]

/-- A tick is the closed form for one. -/
theorem tick_eq_ticked (s : State) : s.tick = s.ticked 1 := by
  have hlast : (0 < s.ST.toNat ∧ s.ST.toNat ≤ 1) ↔ s.ST.toNat = 1 := by omega
  rw [State.tick, tick_DT]
  simp only [State.ticked, hlast]
  exact tick_ST { s with DT := BitVec.ofNat 8 (s.DT.toNat - 1) }

/-- `m` ticks and then `n` are `m + n`: TONE_STOP comes in the first part or the second. -/
theorem ticked_ticked (m n : Nat) (s : State) : (s.ticked m).ticked n = s.ticked (m + n) := by
  have hstops : (if 0 < s.ST.toNat ∧ s.ST.toNat ≤ m then 1 else 0) +
      (if 0 < s.ST.toNat - m ∧ s.ST.toNat - m ≤ n then 1 else 0) =
        if 0 < s.ST.toNat ∧ s.ST.toNat ≤ m + n then 1 else 0 := by
    split_ifs <;> omega
  simp only [State.ticked, toNat_ofNat_sub, Nat.sub_sub, Nat.add_assoc, hstops]

/-- `n` ticks are the closed form for `n`. -/
theorem ticks_eq_ticked (n : Nat) (s : State) : State.ticks n s = s.ticked n := by
  induction n generalizing s with
  | zero => exact (ticked_zero s).symm
  | succ n ih => rw [State.ticks, ih, tick_eq_ticked, ticked_ticked, Nat.add_comm]

/-! ### Elapsed time (R421) -/

/-- Elapsed time does `n` ticks and leaves the remainder `r` when these are what the old remainder and the elapsed
time come to, in units of 1/60000 s. -/
theorem tickTimers_eq {s : State} {elapsedMs n : Nat} {r : Fin 1000}
    (h : s.tacc.val + 60 * elapsedMs = 1000 * n + r.val) :
    tickTimers elapsedMs s = { s.ticked n with tacc := r } := by
  have hticks : (s.tacc.val + 60 * elapsedMs) / 1000 = n := by omega
  have hrest : (s.tacc.val + 60 * elapsedMs) % 1000 = r.val := by omega
  simp only [tickTimers, Config.timerHz, Config.tickUnits, hticks, hrest, ticks_eq_ticked, State.ticked]

/-- Any remainder and elapsed time come to a number of whole ticks and a remainder. -/
theorem exists_ticks_and_remainder (r : Fin 1000) (elapsedMs : Nat) :
    ∃ (n : Nat) (q : Fin 1000), r.val + 60 * elapsedMs = 1000 * n + q.val :=
  ⟨_, ⟨_, Nat.mod_lt (r.val + 60 * elapsedMs) (by decide)⟩, (Nat.div_add_mod _ 1000).symm⟩

/-- Settles O53: the closed form for one tick; and 1000 ms are 60000 units, 60 whole ticks with the remainder kept. -/
theorem aTickDecrementsEachTimer : Obligations.ATickDecrementsEachTimer := by
  intro s
  constructor
  · rw [tick_eq_ticked, State.ticked]
    have hlast : (0 < s.ST.toNat ∧ s.ST.toNat ≤ 1) ↔ s.ST.toNat = 1 := by omega
    simp only [hlast]
  · rw [ticks_eq_ticked]
    exact tickTimers_eq (n := 60) (r := s.tacc) (Nat.add_comm _ _)

/-- Settles O54: the whole ticks of the two parts add up, and the remainder of the first is carried to the second. -/
theorem elapsedTimeMayBeSplit : Obligations.ElapsedTimeMayBeSplit := by
  intro a b s
  obtain ⟨m, q, hfirst⟩ := exists_ticks_and_remainder s.tacc a
  obtain ⟨n, r, hsecond⟩ := exists_ticks_and_remainder q b
  have hboth : s.tacc.val + 60 * (a + b) = 1000 * (m + n) + r.val := by omega
  rw [tickTimers_eq hfirst, tickTimers_eq (s := { s.ticked m with tacc := q }) hsecond, tickTimers_eq hboth,
    ← ticked_ticked]
  rfl

/-- Settles O55: the closed form for the whole ticks, with the remainder. -/
theorem tickTimersTouchesOnlyTheTimers : Obligations.TickTimersTouchesOnlyTheTimers := by
  intro s ms rest hsched
  obtain ⟨n, r, h⟩ := exists_ticks_and_remainder s.tacc ms
  have hticks : (s.tacc.val + 60 * ms) / 1000 = n := by omega
  have hrest : (s.tacc.val + 60 * ms) % 1000 = r.val := by omega
  rw [hticks, hrest, step_of_cons hsched]
  exact ⟨_, congrArg Host.Outcome.next (tickTimers_eq (s := s.withSchedule rest) h), rfl, toNat_ofNat_sub _ _,
    toNat_ofNat_sub _ _, rfl, rfl⟩

end Sys2Proof.Machine
end

section
/-! PROOFS. The driver (60_exceptions.md R440, R444, R446): a scheduled step is the same step, and a run that faults
has no good end at or after its fault. -/

namespace Sys2Proof.Machine

/-! ### A scheduled step (R440, R444) -/

/-- `step()` does the same whatever is scheduled: each of its phases does. -/
theorem dispatcherStep_withSchedule (s : State) (ops : List DriverOp) :
    dispatcherStep (s.withSchedule ops) = mapNext (fun t => t.withSchedule ops) (dispatcherStep s) := by
  cases hhalt : s.halt with
  | some r =>
    rw [dispatcherStep_of_halted hhalt]
    exact dispatcherStep_of_halted hhalt
  | none =>
    have hwait := resolveKeyWait_withSchedule s ops
    cases hkey : resolveKeyWait s with
    | none =>
      rw [hkey] at hwait
      rw [dispatcherStep_of_held hhalt hkey]
      exact dispatcherStep_of_held hhalt hwait
    | some u =>
      rw [hkey] at hwait
      rw [dispatcherStep_of_resolved hhalt hkey, ← stepInstruction_withSchedule]
      exact dispatcherStep_of_resolved hhalt hwait

/-- Settles O59: the scheduled call is `step()` of the state with the rest scheduled, which does what it does with
nothing scheduled. -/
theorem aScheduledStepIsTheSameStep : Obligations.AScheduledStepIsTheSameStep := by
  intro s rest
  constructor
  · intro hsched
    calc step s
      _ = dispatcherStep (s.withSchedule rest) := step_of_cons hsched
      _ = mapNext (fun t => t.withSchedule rest) (dispatcherStep (s.withSchedule [])) :=
        dispatcherStep_withSchedule (s.withSchedule []) rest
      _ = mapNext (fun t => t.withSchedule rest) (step (s.withSchedule [])) := by rw [step_of_empty rfl]
  · exact fun hsched => step_of_cons hsched

/-! ### Runs (R446) -/

/-- From a halted core a run reaches no other point. -/
theorem RunPoint.after_of_halted {p q : RunPoint} {count : Nat} (hhalt : p.state.halt ≠ none)
    (h : RunPoint.after count p = some q) : q = p := by
  cases count with
  | zero => cases h; rfl
  | succ count =>
    rw [RunPoint.after, RunPoint.next_of_halted hhalt] at h
    cases h

/-- A run that halts a running core makes a call of `step()` on the way: the one that faults. -/
theorem RunPoint.steps_lt_of_halts {p q : RunPoint} {count : Nat} (hrun : p.state.halt = none)
    (h : RunPoint.after count p = some q) (hhalt : q.state.halt ≠ none) : p.steps < q.steps := by
  induction count generalizing p with
  | zero => cases h; exact absurd hrun hhalt
  | succ count ih =>
    rw [RunPoint.after, Option.bind_eq_some_iff] at h
    obtain ⟨r, hnext, hafter⟩ := h
    obtain ⟨-, -, hstep, hsteps⟩ := RunPoint.next_cases hnext
    by_cases hr : r.state.halt = none
    · have hle : p.steps ≤ r.steps := RunPoint.steps_le (n := 1) (by simpa [RunPoint.after] using hnext)
      exact Nat.lt_of_le_of_lt hle (ih hr hafter)
    · rw [if_pos (nextOp_of_halts hrun hstep hr)] at hsteps
      have hle := RunPoint.steps_le hafter
      omega

/-- Of two points of one run, the later is reached from the earlier. -/
theorem RunPoint.after_of_le {m n : Nat} {p q r : RunPoint} (hle : m ≤ n) (hm : RunPoint.after m p = some q)
    (hn : RunPoint.after n p = some r) : RunPoint.after (n - m) q = some r := by
  rw [← Nat.add_sub_of_le hle, RunPoint.after_add, hm] at hn
  exact hn

/-- Settles O60. A good end at or after the fault would be the faulted end, which the run does not go on from; so the
good end is an earlier point, and the run from it halts the core by a call of `step()`. -/
theorem aFaultedRunHasNoLaterGoodEnd : Obligations.AFaultedRunHasNoLaterGoodEnd := by
  rintro s t u M N ⟨⟨-, m, hm⟩, hhalted⟩ ⟨⟨-, n, hn⟩, hrunning⟩
  obtain hlater | hearlier := Nat.le_total m n
  · have hsame : (⟨N, u⟩ : RunPoint) = ⟨M, t⟩ :=
      RunPoint.after_of_halted hhalted (RunPoint.after_of_le hlater hm hn)
    cases hsame
    exact absurd hrunning hhalted
  · exact RunPoint.steps_lt_of_halts hrunning (RunPoint.after_of_le hearlier hn hm) hhalted

end Sys2Proof.Machine
end

section
/-! PROOFS. Reset and the program load (70_reset_and_hazards.md). The state after reset is a literal, so its pieces
are read off it; only the display's cells, the bytes past the font and the font table are facts of their own. A load
is said once for each of its two answers. -/

namespace Sys2Proof.Machine

/-! ### What reset leaves (R470, R49, R55) -/

/-- The font has sixteen glyphs, so an address whose glyph number is 16 or more holds 0 (R49, R55). -/
theorem resetByte_past_font {a : Nat} (h : 0x50 ≤ a) : resetByte a = 0 := by
  have hglyph : fontGlyphs.length ≤ (a - Config.fontBase) / Config.glyphSize := by
    change 16 ≤ a / 5
    omega
  rw [resetByte, if_neg (Nat.not_lt_zero a), List.getD_eq_default fontGlyphs [] hglyph, List.getD_nil]

/-- Settles O56: memory lists no address after reset, so every byte is its reset byte: a glyph's byte below 0x50, and
0 from there up. -/
theorem whatResetLeaves : Obligations.WhatResetLeaves :=
  ⟨fun r => Vector.getElem_replicate r.isLt, rfl, rfl, fun j => Vector.getElem_replicate j.isLt, rfl, rfl, rfl,
    Display.cell_clear, rfl, rfl, rfl, rfl, fun _ ha => resetByte_past_font ha, by decide, by decide⟩

/-- Settles O57: the scheduled reset finds the parameter and the environment's answers of `s` and the rest of the
schedule, and keeps these alone. -/
theorem resetFromEveryState : Obligations.ResetFromEveryState :=
  fun _ _ hsched => step_of_cons hsched

/-! ### The program load (R475, R476) -/

/-- A load that is still allowed answers the loaded state. -/
theorem step_of_load {s : State} {bytes : List Byte} {rest : List DriverOp} (hsched : s.schedule = .load bytes :: rest)
    (hopen : s.loadOpen = true) : step s = .next (loadProgram bytes (s.withSchedule rest)) := by
  rw [step_of_cons hsched]
  exact if_pos hopen

/-- A program no longer than the program region is copied (R475). -/
theorem loadProgram_of_fits {s : State} {bytes : List Byte} (h : ¬ Params.maxProgram s.params < bytes.length) :
    loadProgram bytes s =
      { s with mem := s.mem.writeBytes Config.loadOffset bytes, loadOk := some true, loadOpen := false } :=
  if_neg h

/-- A program longer than the program region leaves the warning and no byte of itself (R476). -/
theorem loadProgram_of_too_large {s : State} {bytes : List Byte} (h : Params.maxProgram s.params < bytes.length) :
    loadProgram bytes s = { s.warn .loadTooLarge (BitVec.ofNat 16 Config.loadOffset) with
      loadOk := some false, loadOpen := false } :=
  if_pos h

/-- Settles O58: a load in turn copies or rejects by the length of the program. What it copies reads back because an
accepted program ends within memory. -/
theorem loadCopiesOrRejects : Obligations.LoadCopiesOrRejects := by
  intro s bytes rest hsched hopen
  rw [step_of_load hsched hopen]
  constructor
  · intro hfits
    have hnot : ¬ Params.maxProgram s.params < bytes.length := Nat.not_lt.2 hfits
    rw [loadProgram_of_fits (s := s.withSchedule rest) hnot]
    refine ⟨_, rfl, rfl, fun a ha => Memory.read_writeBytes_other s.mem _ a bytes ha, fun hwf hlegal k hk => ?_⟩
    exact Memory.read_writeBytes hwf _ bytes (load_fits hlegal hnot) hk
  · intro hlarge
    rw [loadProgram_of_too_large (s := s.withSchedule rest) hlarge]
    rfl

end Sys2Proof.Machine
end

section
/-! PROOFS. What the machine refuses (60_exceptions.md R447, log entry 8): every operation of the driver answers a next
state, except a load that may not come any more, and so does every step. -/

namespace Sys2Proof.Machine

/-- Fetch, decode, execute and clamp answer a next state: the fetch faults, the word is illegal, or an instruction
runs, and each of the three answers. -/
theorem stepInstruction_answers (s : State) : ∃ t, stepInstruction s = .next t := by
  cases hfetch : fetch s with
  | fails code addr => exact ⟨_, stepInstruction_of_fails hfetch⟩
  | bytes b0 b1 =>
    cases hdecode : decode (wordOf b0 b1) with
    | error e => exact ⟨_, stepInstruction_of_illegal hfetch hdecode⟩
    | ok i =>
      obtain ⟨u, hexec⟩ := everyInstructionAnswersANextState i s
      rw [stepInstruction_of_legal hfetch hdecode, hexec]
      exact ⟨_, rfl⟩

/-- `step()` answers a next state: of a halted core, of one held at a key-wait, and of one that runs an instruction. -/
theorem dispatcherStep_answers (s : State) : ∃ t, dispatcherStep s = .next t := by
  cases hhalt : s.halt with
  | some r => exact ⟨s, dispatcherStep_of_halted hhalt⟩
  | none =>
    cases hkey : resolveKeyWait s with
    | none => exact ⟨_, dispatcherStep_of_held hhalt hkey⟩
    | some u =>
      rw [dispatcherStep_of_resolved hhalt hkey]
      exact stepInstruction_answers u

/-- An operation of the driver answers a next state unless it is a load and none may come any more. -/
theorem runOp_answers {op : DriverOp} {s : State} (h : ¬ (s.loadOpen = false ∧ ∃ bytes, op = .load bytes)) :
    ∃ t, runOp op s = .next t := by
  cases op with
  | load bytes =>
    have hopen : s.loadOpen = true := by simpa using h
    exact ⟨_, if_pos hopen⟩
  | step => exact dispatcherStep_answers s
  | idle | reset | tick => exact ⟨_, rfl⟩

/-- A load that may not come any more is refused by its name (R447). -/
theorem step_of_load_out_of_turn {s : State} {bytes : List Byte} {rest : List DriverOp}
    (hsched : s.schedule = .load bytes :: rest) (hclosed : s.loadOpen = false) :
    step s = .refused .loadOutOfTurn := by
  rw [step_of_cons hsched]
  exact if_neg (by simp [hclosed])

/-- A step answers a next state unless the driver's next operation is a load and none may come any more. -/
theorem step_answers {s : State}
    (h : ¬ (s.loadOpen = false ∧ ∃ bytes rest, s.schedule = .load bytes :: rest)) : ∃ t, step s = .next t := by
  cases hsched : s.schedule with
  | nil =>
    rw [step_of_empty hsched]
    exact dispatcherStep_answers s
  | cons op rest =>
    rw [step_of_cons hsched]
    refine runOp_answers fun ⟨hclosed, bytes, hload⟩ => h ⟨hclosed, bytes, rest, ?_⟩
    rw [hsched, hload]

/-- Settles O16: a load out of turn is refused by that name, and in every other state the step answers. -/
theorem onlyALoadOutOfTurnIsRefused : Obligations.OnlyALoadOutOfTurnIsRefused := by
  intro s
  by_cases hturn : s.loadOpen = false ∧ ∃ bytes rest, s.schedule = .load bytes :: rest
  · obtain ⟨hclosed, bytes, rest, hsched⟩ := hturn
    simp [step_of_load_out_of_turn hsched hclosed, hclosed, hsched]
  · obtain ⟨t, ht⟩ := step_answers hturn
    simp [ht, hturn]

end Sys2Proof.Machine
end
